-- ==== Sys2Proof/Word.lean ====
section
/-! DEFINITION. The widths the IPE's registers and tables have (00_scope.md R5, R8; 10_state.md R26 to R35). -/

namespace Sys2Proof

/-- One byte of data memory, or one entry of MAP (`MAPW`, 00_scope.md R5). -/
abbrev Byte := BitVec 8

/-- One word of the register port, a command word, a histogram bin (`REGW`, `BINW`, 00_scope.md R5). -/
abbrev Word := BitVec 32

/-- WIDTH, HEIGHT, KDIV and one kernel numerator (`DIMW`, `KDIVW`, `KNW`, 00_scope.md R5). -/
abbrev Half := BitVec 16

/-- The kernel file KN[0..24] (10_state.md R33). -/
abbrev KernelFile := Vector Half 25

/-- The histogram table HIST[0..255] (10_state.md R34). -/
abbrev HistTable := Vector Word 256

/-- The remap table MAP[0..255] (10_state.md R35). -/
abbrev MapTable := Vector Byte 256

end Sys2Proof
end

