-- ==== Sys2Proof/Syntax.lean ====
section
/-! DEFINITION. The sixteen commands of the IPE (30_encoding.md R92), one constructor per row of opcode_table.json. -/

namespace Sys2Proof

/-- A command. All operands but CONV.K's `n` come from registers (30_encoding.md R90). -/
inductive Instr where
  /-- NOP (44_system.md R229). -/
  | nop
  /-- SCAN.IN (40_scanline.md R120). -/
  | scanIn
  /-- SCAN.OUT (40_scanline.md R121). -/
  | scanOut
  /-- CONV.K n (41_convolution.md R147); `n` is the literal kernel size of bits 11:8 (30_encoding.md R91). -/
  | convK (n : Nat)
  /-- CONV.BOX3 (41_convolution.md R151). -/
  | convBox3
  /-- CONV.GAUSS3 (41_convolution.md R152). -/
  | convGauss3
  /-- CONV.GAUSS5 (41_convolution.md R153). -/
  | convGauss5
  /-- CONV.EDGE (41_convolution.md R154). -/
  | convEdge
  /-- CONV.EMBOSS (41_convolution.md R155). -/
  | convEmboss
  /-- CONV.SHARP (41_convolution.md R156). -/
  | convSharp
  /-- HIST (42_histogram_eq.md R172). -/
  | hist
  /-- EQMAP (42_histogram_eq.md R174). -/
  | eqmap
  /-- REMAP (42_histogram_eq.md R177). -/
  | remap
  /-- EQ (42_histogram_eq.md R178). -/
  | equalize
  /-- RGB2YUV (43_colour.md R205). -/
  | rgb2yuv
  /-- YUV2RGB (43_colour.md R206). -/
  | yuv2rgb
deriving DecidableEq, Repr

end Sys2Proof
end

