-- ==== Sys2Proof/WellFormed.lean ====
section
/-! DEFINITION. Which commands the command word can spell (30_encoding.md R90, R91). -/

namespace Sys2Proof

/-- A command is well formed when its operand fits its field: `n` is four bits wide, 0 .. 15 (30_encoding.md R91).
Sizes other than 3 and 5 are well formed: they are encodable and fail with `E_KERNEL` when executed. -/
def Instr.wellFormed : Instr → Bool
  | .convK n => decide (n < 16)
  | .nop | .scanIn | .scanOut | .convBox3 | .convGauss3 | .convGauss5 | .convEdge | .convEmboss | .convSharp
  | .hist | .eqmap | .remap | .equalize | .rgb2yuv | .yuv2rgb => true

end Sys2Proof
end

