-- ==== Sys2Proof/Decode.lean ====
section
/-! DEFINITION. The decoder of the command word (30_encoding.md R90 to R98), total on every word and rejecting by name;
after it the encoder, and the opcode map of R92 as a table. -/

namespace Sys2Proof

/-- Why a word is illegal (30_encoding.md R96, 60_exceptions.md R231). Either way the command fails with `E_CMD`. -/
inductive DecodeError where
  /-- Bits 7:0 are one of the 240 unassigned opcodes. -/
  | unassignedOpcode
  /-- The opcode is assigned and a bit that must be 0 is not. -/
  | reservedBits
deriving DecidableEq, Repr

/-- The `opcode` field, bits 7:0 (30_encoding.md R90). -/
def opcodeField (w : Word) : BitVec 8 := w.extractLsb' 0 8

/-- The `n` field, bits 11:8, as the literal number it spells (30_encoding.md R91). -/
def sizeField (w : Word) : Nat := (w.extractLsb' 8 4).toNat

/-- The fifteen format Z rows of the opcode map (30_encoding.md R92, R93). -/
def formatZ (op : BitVec 8) : Option Instr :=
  match op with
  | 0x00#8 => some .nop
  | 0x01#8 => some .scanIn
  | 0x02#8 => some .scanOut
  | 0x11#8 => some .convBox3
  | 0x12#8 => some .convGauss3
  | 0x13#8 => some .convGauss5
  | 0x14#8 => some .convEdge
  | 0x15#8 => some .convEmboss
  | 0x16#8 => some .convSharp
  | 0x20#8 => some .hist
  | 0x21#8 => some .eqmap
  | 0x22#8 => some .remap
  | 0x23#8 => some .equalize
  | 0x30#8 => some .rgb2yuv
  | 0x31#8 => some .yuv2rgb
  | _ => none

/-- The decoding procedure (30_encoding.md R93). It reads nothing but the word. -/
def decode (w : Word) : Except DecodeError Instr :=
  if opcodeField w = 0x10#8 then
    if w.extractLsb' 12 20 ≠ 0#20 then .error .reservedBits else .ok (.convK (sizeField w))
  else
    match formatZ (opcodeField w) with
    | some i => if w.extractLsb' 8 24 ≠ 0#24 then .error .reservedBits else .ok i
    | none => .error .unassignedOpcode

/-- The command word of a command (30_encoding.md R90, R92). -/
def encode : Instr → Word
  | .nop => 0x00000000#32
  | .scanIn => 0x00000001#32
  | .scanOut => 0x00000002#32
  | .convK n => 0x00000010#32 ||| (BitVec.ofNat 32 n <<< 8)
  | .convBox3 => 0x00000011#32
  | .convGauss3 => 0x00000012#32
  | .convGauss5 => 0x00000013#32
  | .convEdge => 0x00000014#32
  | .convEmboss => 0x00000015#32
  | .convSharp => 0x00000016#32
  | .hist => 0x00000020#32
  | .eqmap => 0x00000021#32
  | .remap => 0x00000022#32
  | .equalize => 0x00000023#32
  | .rgb2yuv => 0x00000030#32
  | .yuv2rgb => 0x00000031#32

/-- One row of the opcode map: the word `w` selects it when `w AND mask = pattern` (30_encoding.md R92). -/
structure OpcodeRow where
  opPattern : Word
  opMask : Word
  reads : Word → Instr

/-- The opcode map (30_encoding.md R92), one row per command, in its order. -/
def opcodeMap : List OpcodeRow :=
  [⟨0x00000000#32, 0xFFFFFFFF#32, fun _ => .nop⟩,
   ⟨0x00000001#32, 0xFFFFFFFF#32, fun _ => .scanIn⟩,
   ⟨0x00000002#32, 0xFFFFFFFF#32, fun _ => .scanOut⟩,
   ⟨0x00000010#32, 0xFFFFF0FF#32, fun w => .convK (sizeField w)⟩,
   ⟨0x00000011#32, 0xFFFFFFFF#32, fun _ => .convBox3⟩,
   ⟨0x00000012#32, 0xFFFFFFFF#32, fun _ => .convGauss3⟩,
   ⟨0x00000013#32, 0xFFFFFFFF#32, fun _ => .convGauss5⟩,
   ⟨0x00000014#32, 0xFFFFFFFF#32, fun _ => .convEdge⟩,
   ⟨0x00000015#32, 0xFFFFFFFF#32, fun _ => .convEmboss⟩,
   ⟨0x00000016#32, 0xFFFFFFFF#32, fun _ => .convSharp⟩,
   ⟨0x00000020#32, 0xFFFFFFFF#32, fun _ => .hist⟩,
   ⟨0x00000021#32, 0xFFFFFFFF#32, fun _ => .eqmap⟩,
   ⟨0x00000022#32, 0xFFFFFFFF#32, fun _ => .remap⟩,
   ⟨0x00000023#32, 0xFFFFFFFF#32, fun _ => .equalize⟩,
   ⟨0x00000030#32, 0xFFFFFFFF#32, fun _ => .rgb2yuv⟩,
   ⟨0x00000031#32, 0xFFFFFFFF#32, fun _ => .yuv2rgb⟩]

/-- The row's test of a word (30_encoding.md R92). -/
def OpcodeRow.selects (r : OpcodeRow) (w : Word) : Bool := w &&& r.opMask == r.opPattern

/-- What the decoder reads from an instruction whose `nbits` bits are `w`, bit 0 the least significant bit of its
one word. A command is one 32-bit word latched from the register port (20_memory.md R77), so no byte order enters:
bits above `nbits` are 0 and nothing lies above bit 31. -/
def decodeTableWord (nbits w : Nat) : Option Instr :=
  match decode (BitVec.ofNat 32 (w % 2 ^ nbits)) with
  | .ok i => some i
  | .error _ => none

end Sys2Proof
end

