-- ==== Sys2Proof/Machine/Arith.lean ====
section
/-! DEFINITION. The helper functions on unbounded integers every rule uses (00_scope.md R7, R9), and small tables. -/

namespace Sys2Proof.Machine

/-- `clamp(v, lo, hi)`: saturation (00_scope.md R9). -/
def clamp (v lo hi : Int) : Int := if v < lo then lo else if hi < v then hi else v

/-- `tdiv(a, b)`, b > 0: the quotient rounded toward zero (00_scope.md R9). -/
def tdiv (a b : Int) : Int := if 0 ≤ a then a / b else -((-a) / b)

/-- `rdiv(a, b)`, b > 0: the nearest integer to a/b, ties away from zero (00_scope.md R9). -/
def rdiv (a b : Int) : Int := if 0 ≤ a then (2 * a + b) / (2 * b) else -((2 * (-a) + b) / (2 * b))

/-- `pad(n)`: how many bytes bring n to a multiple of 4 (00_scope.md R9). -/
def pad (n : Nat) : Nat := (4 - n % 4) % 4

/-- The byte a clamped result is stored as (20_memory.md R78). -/
def clampByte (v : Int) : Byte := BitVec.ofInt 8 (clamp v 0 255)

/-- The table of n entries whose entry k is f k. -/
def tabulate {α : Type} (n : Nat) (f : Nat → α) : Vector α n := ⟨((List.range n).map f).toArray, by simp⟩

end Sys2Proof.Machine
end

