-- ==== Sys2Proof/Config.lean ====
section
/-! DEFINITION. What an implementation fixes (00_scope.md R5; 93_implementation_defined.md P1, P2) and the free
values of the model (93_implementation_defined.md U1 to U4): constants without a body, of which nothing can be proved. -/

namespace Sys2Proof.Config

/-- The two open parameters of the block (00_scope.md R5). They never change while a machine runs; the model carries
them in State so that every statement ranges over all their values (log entries 3 and 4). -/
structure Params where
  /-- The highest data-memory address: `MEM_BYTES` − 1, so that exactly 1 ≤ `MEM_BYTES` ≤ 2^32 can be said (R5, P1). -/
  memTop : Word
  /-- `EMBOSS_KN`: nine signed numerators, row-major (41_convolution.md R155, P2). -/
  embossKn : Vector Half 9
  /-- `EMBOSS_KDIV`: the positive divisor of the emboss preset (41_convolution.md R155, P2). -/
  embossKdiv : Half
deriving DecidableEq, Repr

/-- `MEM_BYTES`: the number of bytes of data memory (20_memory.md R60). -/
def Params.memBytes (p : Params) : Nat := p.memTop.toNat + 1

/-- The parameters State.reset carries: `MEM_BYTES` = 0x100000, the size every vector of 95_test_vectors.md uses
(DESIGN CHOICE, unsafe; log entry 3), and the spec's default emboss kernel (41_convolution.md R155; log entry 4). -/
def defaultParams : Params where
  memTop := 0xFFFFF#32
  embossKn := #v[0xFFFE#16, 0xFFFF#16, 0#16, 0xFFFF#16, 1#16, 1#16, 0#16, 1#16, 2#16]
  embossKdiv := 1#16

/-- A free byte: the value of data-memory byte `addr` at draw `draw` where the spec fixes none
(93_implementation_defined.md U4 a; log entry 8). -/
opaque freeByte (draw addr : Nat) : Byte

/-- A free 32-bit word: histogram bin `k` at draw `draw` where the spec fixes none (U1, U3, U4; log entries 7, 8, 10). -/
opaque freeWord (draw k : Nat) : Word

/-- A free remap entry: MAP entry `k` at draw `draw` where the spec fixes none (U1, U3, U4; log entries 7, 8, 10). -/
opaque freeEntry (draw k : Nat) : Byte

/-- A free choice between the two values the spec allows a byte to have (U2, U4 b and c; log entries 9, 10). -/
opaque freeBit (draw addr : Nat) : Bool

end Sys2Proof.Config
end

