-- ==== Sys2Proof/Machine/State.lean ====
section
/-! DEFINITION. The state of the IPE as plain data (10_state.md R20 to R42), the inputs of the machine, the ways a step
can stop, and the state after reset. -/

namespace Sys2Proof.Machine

/-- The five bits of STATUS (10_state.md R23). Bits 31:5 are reserved, read 0, and are not stored. -/
structure Status where
  /-- Bit 0: a command has been accepted and has not completed. -/
  busy : Bool
  /-- Bit 1: a command completed, successfully or not. -/
  done : Bool
  /-- Bit 2: the completed command failed its check phase. -/
  err : Bool
  /-- Bit 3: EQMAP or EQ took the identity fallback. -/
  degen : Bool
  /-- Bit 4: a non-exempt register was written while BUSY = 1. -/
  bwerr : Bool
deriving DecidableEq, Repr

/-- The values ERRCODE.CODE takes (60_exceptions.md R230); 7 .. 15 are never produced (93_implementation_defined.md U6). -/
inductive ErrCode where
  /-- 0: no error since the last acceptance, or since reset. -/
  | noError
  /-- 1: `E_CMD` (60_exceptions.md R231). -/
  | eCmd
  /-- 2: `E_DEPTH` (60_exceptions.md R232). -/
  | eDepth
  /-- 3: `E_KERNEL` (60_exceptions.md R233). -/
  | eKernel
  /-- 4: `E_TRUNC` (60_exceptions.md R234). -/
  | eTrunc
  /-- 5: `E_ADDR` (60_exceptions.md R235). -/
  | eAddr
  /-- 6: `E_ALIAS` (60_exceptions.md R236). -/
  | eAlias
deriving DecidableEq, Repr

/-- One input of the machine: an action of the host, a pulse of `rst_n`, or a turn of the engine between two of them
(00_scope.md R6, 20_memory.md R64; DESIGN CHOICE, safe; log entry 1). Register offsets are word indices, because the
register port has address bits 11:2 only (20_memory.md R62, R64). -/
inductive Input where
  /-- `RegRead`(4 × index) (44_system.md R226). -/
  | regRead (index : BitVec 10)
  /-- `RegWrite`(4 × index, v) (44_system.md R227, R224). -/
  | regWrite (index : BitVec 10) (v : Word)
  /-- The host loads one byte of data memory (20_memory.md R60; log entry 12). The address is unbounded, and one at or
  above `MEM_BYTES`, 2^32 and more among them, does not exist (log entry 11). -/
  | memRead (addr : Nat)
  /-- The host stores one byte of data memory (20_memory.md R60; log entries 11 and 12). -/
  | memWrite (addr : Nat) (v : Byte)
  /-- The engine's turn: the command in flight, if there is one, completes here (44_system.md R222). -/
  | engine
  /-- `rst_n` is pulsed low (70_reset_and_hazards.md R260, R262). -/
  | reset
deriving DecidableEq, Repr

/-- Data memory as (address, byte) pairs, addresses strictly rising, no pair equal to what an unlisted address reads
as (20_memory.md R60; the form is `Memory.wf` of Machine/Ops.lean). -/
abbrev Memory := List Host.Cell

/-- The state of the machine. The fields down to `mem` are the spec's (10_state.md R20); the last five are the model's
own (log entries 1 and 17). -/
structure State where
  /-- The implementation's parameters (00_scope.md R5); no step changes them. -/
  params : Config.Params
  /-- CTRL.IE (10_state.md R22). -/
  ie : Bool
  /-- STATUS (10_state.md R23). -/
  status : Status
  /-- ERRCODE.CODE (10_state.md R24). -/
  errcode : ErrCode
  /-- CMD (10_state.md R25). -/
  cmd : Word
  /-- SRC (10_state.md R26). -/
  src : Word
  /-- DST (10_state.md R27). -/
  dst : Word
  /-- WIDTH bits 15:0 (10_state.md R28). -/
  width : Half
  /-- HEIGHT bits 15:0 (10_state.md R29). -/
  height : Half
  /-- FMT.BPP (10_state.md R30). -/
  bpp : BitVec 6
  /-- FMT.TD: the on-disk array is top-down (10_state.md R30). -/
  td : Bool
  /-- LEN (10_state.md R31). -/
  len : Word
  /-- KDIV bits 15:0 (10_state.md R32). -/
  kdiv : Half
  /-- KN[0..24] (10_state.md R33). -/
  kn : KernelFile
  /-- HIST[0..255] (10_state.md R34). -/
  hist : HistTable
  /-- MAP[0..255] (10_state.md R35). -/
  map : MapTable
  /-- The data memory (10_state.md R39). -/
  mem : Memory
  /-- What happens next, in order: host actions and turns of the engine (log entry 1). -/
  inputs : List Input
  /-- What the host has written since the command in flight was accepted, the latest first: each address, with the byte
  that was there before (70_reset_and_hazards.md R270; log entry 17). -/
  touched : List Host.Cell
  /-- How many times a free value was drawn. -/
  draws : Nat
  /-- The word the last register read returned (`reg_rdata`, 20_memory.md R64). -/
  regRdata : Word
  /-- The byte the host's last data-memory read returned. -/
  hostRdata : Byte
deriving DecidableEq, Repr

/-- Why a step can stop the machine. -/
inductive Fault where
  /-- The host accessed the data-memory address `addr`, which is at or above `MEM_BYTES` and does not exist
  (20_memory.md R60). Raised by Input.memRead and Input.memWrite only; no command raises it. Safe: the spec gives such
  an access no meaning (log entry 11). -/
  | noSuchAddress (addr : Nat)
deriving DecidableEq, Repr

/-- Why a step can be refused a meaning. -/
inductive Refusal where
  /-- The command has no meaning in this model yet. Raised by exec alone; safe. No arm of exec raises it. -/
  | notModelled (mnemonic : String)
deriving DecidableEq, Repr

/-- The state after reset (10_state.md R42, 70_reset_and_hazards.md R260). HIST, MAP and the data memory are unspecified
there; they hold 0 here (DESIGN CHOICE, unsafe; log entries 5 and 6), and `MEM_BYTES` is 0x100000 (log entry 3). -/
def State.reset : State where
  params := Config.defaultParams
  ie := false
  status := ⟨false, false, false, false, false⟩
  errcode := .noError
  cmd := 0#32
  src := 0#32
  dst := 0#32
  width := 0#16
  height := 0#16
  bpp := 0#6
  td := false
  len := 0#32
  kdiv := 1#16
  kn := Vector.replicate 25 0#16
  hist := Vector.replicate 256 0#32
  map := Vector.replicate 256 0#8
  mem := []
  inputs := []
  touched := []
  draws := 0
  regRdata := 0#32
  hostRdata := 0#8

end Sys2Proof.Machine
end

