-- ==== Sys2Proof/Machine/Flags.lean ====
section
/-! DEFINITION. The status flags: the STATUS word, acknowledge, acceptance, completion, the interrupt line
(10_state.md R23, R37; 44_system.md R220, R222; 60_exceptions.md R244), and what STATUS.DEGEN reports
(42_histogram_eq.md R173, R176). -/

namespace Sys2Proof.Machine

/-- STATUS as the register port reads it: bits 31:5 zero (10_state.md R23, 44_system.md R226). -/
def Status.toWord (f : Status) : Word :=
  BitVec.ofNat 32
    (f.busy.toNat + 2 * f.done.toNat + 4 * f.err.toNat + 8 * f.degen.toNat + 16 * f.bwerr.toNat)

/-- A host write of v to STATUS: bits 4:1 are write-1-to-clear, bit 0 and bits 31:5 of v are ignored
(10_state.md R23, 44_system.md R227). It is also how an error is acknowledged (60_exceptions.md R240). -/
def Status.writeOneToClear (f : Status) (v : Word) : Status :=
  { f with
    done := f.done && !v.getLsbD 1
    err := f.err && !v.getLsbD 2
    degen := f.degen && !v.getLsbD 3
    bwerr := f.bwerr && !v.getLsbD 4 }

/-- Acceptance of a command: DONE, ERR, DEGEN fall, BUSY rises, BWERR stays (44_system.md R220). -/
def Status.accepted (f : Status) : Status := { f with busy := true, done := false, err := false, degen := false }

/-- Completion of a command that failed: ERR and DONE rise, BUSY falls (44_system.md R222, 60_exceptions.md R238). -/
def Status.failed (f : Status) : Status := { f with busy := false, done := true, err := true }

/-- Completion of a command that performed: DONE rises, DEGEN too if the fallback was taken, BUSY falls
(44_system.md R222). -/
def Status.completed (f : Status) (fallback : Bool) : Status :=
  { f with busy := false, done := true, degen := f.degen || fallback }

/-- A dropped register write while BUSY = 1 (44_system.md R224). -/
def Status.busyWrite (f : Status) : Status := { f with bwerr := true }

/-- The `irq` output: a level, IE AND DONE (60_exceptions.md R244). -/
def State.irq (s : State) : Bool := s.ie && s.status.done

/-- ERRCODE.CODE as a number (60_exceptions.md R230). -/
def ErrCode.code : ErrCode → Nat
  | .noError => 0
  | .eCmd => 1
  | .eDepth => 2
  | .eKernel => 3
  | .eTrunc => 4
  | .eAddr => 5
  | .eAlias => 6

/-- `cdf[i]` = HIST[0] + … + HIST[i], an exact sum (42_histogram_eq.md R173). -/
def cdf (h : HistTable) (i : Nat) : Nat := ((h.toList.take (i + 1)).map BitVec.toNat).sum

/-- N = `cdf[255]`, the number of samples (42_histogram_eq.md R173). -/
def sampleCount (h : HistTable) : Nat := cdf h 255

/-- The smallest i with `cdf[i]` > 0, if there is a sample (42_histogram_eq.md R173). -/
def lowestLevel (h : HistTable) : Option Nat := (List.range 256).find? (fun i => 0 < cdf h i)

/-- `cdf_min`, which exists iff N > 0 (42_histogram_eq.md R173). -/
def cdfMin (h : HistTable) : Option Nat := (lowestLevel h).map (cdf h)

/-- The histogram is degenerate: no sample, or every sample in one bin (42_histogram_eq.md R176). -/
def degenerate (h : HistTable) : Bool :=
  match cdfMin h with
  | none => true
  | some m => sampleCount h == m

end Sys2Proof.Machine
end

