-- ==== Sys2Proof/Machine/Operands.lean ====
section
/-! DEFINITION. The operands of the commands: derived quantities (00_scope.md R12), data layouts and addressing
functions (20_memory.md R68 to R71, R78), regions and the checks over them (R72, R73), kernels (41_convolution.md
R140, R151 to R156), and the check phase's error conditions (60_exceptions.md R231 to R237). -/

namespace Sys2Proof.Machine

/-! ### Derived quantities -/

/-- W, the image width (00_scope.md R12). -/
def State.w (s : State) : Nat := s.width.toNat

/-- H, the number of rows (00_scope.md R12). -/
def State.h (s : State) : Nat := s.height.toNat

/-- SRC as a data-memory address (10_state.md R26). -/
def State.srcAddr (s : State) : Nat := s.src.toNat

/-- DST as a data-memory address (10_state.md R27). -/
def State.dstAddr (s : State) : Nat := s.dst.toNat

/-- The depth is 8 or 24, the test `E_DEPTH` makes for most commands (60_exceptions.md R232). -/
def State.depthOk (s : State) : Bool := s.bpp == 8#6 || s.bpp == 24#6

/-- BPPB, bytes per pixel: 1 if BPP = 8, 3 if BPP = 24 (00_scope.md R12). For any other BPP the spec leaves it
undefined and no rule reads it, because `E_DEPTH` is raised first (60_exceptions.md R237; log entry 20). -/
def State.bppb (s : State) : Nat := if s.bpp = 8#6 then 1 else 3

/-- NPIX (00_scope.md R12). -/
def State.npix (s : State) : Nat := s.w * s.h

/-- ROWB, the bytes of pixel data in one row (00_scope.md R12). -/
def State.rowb (s : State) : Nat := s.w * s.bppb

/-- PADB, the padding bytes of one on-disk row (00_scope.md R12). -/
def State.padb (s : State) : Nat := pad s.rowb

/-- STRIDE, the bytes of one on-disk row (00_scope.md R12). -/
def State.stride (s : State) : Nat := s.rowb + s.padb

/-- STORE_BYTES, the size of a Pixel Store (00_scope.md R12). -/
def State.storeBytes (s : State) : Nat := s.npix * s.bppb

/-- DISK_BYTES, the size of an on-disk array (00_scope.md R12). -/
def State.diskBytes (s : State) : Nat := s.h * s.stride

/-- YUV_BYTES, the size of a YUV buffer (00_scope.md R12). -/
def State.yuvBytes (s : State) : Nat := s.npix * 12

/-! ### Layouts -/

/-- `PA(B, x, y, c)`: channel c of pixel (x, y) of the Pixel Store at B (20_memory.md R68). -/
def State.pixelAddr (s : State) (base x y c : Nat) : Nat := base + (y * s.w + x) * s.bppb + c

/-- `DA(A, x, r, k)`: byte k of pixel x of on-disk row r of the array at A (20_memory.md R69). -/
def State.diskAddr (s : State) (base x r k : Nat) : Nat := base + r * s.stride + x * s.bppb + k

/-- Padding byte p of on-disk row r of the array at A (20_memory.md R69). -/
def State.padAddr (s : State) (base r p : Nat) : Nat := base + r * s.stride + s.rowb + p

/-- The image row on-disk row r holds: r if top-down, H − 1 − r if bottom-up (20_memory.md R69). -/
def State.yrow (s : State) (r : Nat) : Nat := if s.td then r else s.h - 1 - r

/-- The channel byte k of an on-disk pixel holds: blue, green, red are channels 2, 1, 0 of a 24-bit pixel; an 8-bit
pixel has channel 0 only (20_memory.md R68, R69). -/
def State.diskChannel (s : State) (k : Nat) : Nat := s.bppb - 1 - k

/-- The record of pixel p in the YUV buffer at B (20_memory.md R70). -/
def yuvAddr (base p : Nat) : Nat := base + 12 * p

/-- Byte c of 24-bit pixel p of the store at B (42_histogram_eq.md R171, 43_colour.md R205). -/
def rgbAddr (base p c : Nat) : Nat := base + 3 * p + c

/-! ### Regions and the checks over them -/

/-- A region of data memory: a base address and a length in bytes, both unbounded (20_memory.md R71). -/
structure Region where
  base : Nat
  len : Nat
deriving DecidableEq, Repr

/-- The region holds the byte at address a. -/
def Region.contains (r : Region) (a : Nat) : Bool := decide (r.base ≤ a) && decide (a < r.base + r.len)

/-- `inrange` of a region: empty, or ending at or below `MEM_BYTES`; nothing wraps (20_memory.md R72). -/
def State.inRange (s : State) (r : Region) : Bool :=
  decide (r.len = 0) || decide (r.base + r.len ≤ s.params.memBytes)

/-- `overlap` of two regions; an empty one overlaps nothing (20_memory.md R73). -/
def Region.overlaps (a b : Region) : Bool :=
  decide (0 < a.len) && decide (0 < b.len) && decide (a.base < b.base + b.len) && decide (b.base < a.base + a.len)

/-- The Pixel Store at SRC (20_memory.md R71). -/
def State.srcStore (s : State) : Region := ⟨s.srcAddr, s.storeBytes⟩

/-- The Pixel Store at DST (20_memory.md R71). -/
def State.dstStore (s : State) : Region := ⟨s.dstAddr, s.storeBytes⟩

/-- The on-disk array at SRC (20_memory.md R71). -/
def State.srcDisk (s : State) : Region := ⟨s.srcAddr, s.diskBytes⟩

/-- The on-disk array at DST (20_memory.md R71). -/
def State.dstDisk (s : State) : Region := ⟨s.dstAddr, s.diskBytes⟩

/-- The 24-bit store at SRC that RGB2YUV reads (20_memory.md R71, 43_colour.md R205). -/
def State.srcRgb (s : State) : Region := ⟨s.srcAddr, s.npix * 3⟩

/-- The 24-bit store at DST that YUV2RGB writes (20_memory.md R71, 43_colour.md R206). -/
def State.dstRgb (s : State) : Region := ⟨s.dstAddr, s.npix * 3⟩

/-- The YUV buffer at SRC (20_memory.md R71). -/
def State.srcYuv (s : State) : Region := ⟨s.srcAddr, s.yuvBytes⟩

/-- The YUV buffer at DST (20_memory.md R71). -/
def State.dstYuv (s : State) : Region := ⟨s.dstAddr, s.yuvBytes⟩

/-- The region of a command that has none (20_memory.md R71). -/
def noRegion : Region := ⟨0, 0⟩

/-! ### Check phase -/

/-- One check: the condition under which it fails, and the error it then raises (44_system.md R221). -/
structure Check where
  fails : Bool
  error : ErrCode
deriving DecidableEq, Repr

/-- The first check that fails decides (60_exceptions.md R237). -/
def firstError : List Check → Option ErrCode
  | [] => none
  | c :: cs => if c.fails then some c.error else firstError cs

/-- `E_DEPTH` of the commands that take 8-bit and 24-bit pixels (60_exceptions.md R232). -/
def State.checkDepth (s : State) : Check := ⟨!s.depthOk, .eDepth⟩

/-- `E_DEPTH` of RGB2YUV and YUV2RGB, which take 24-bit pixels only (60_exceptions.md R232). -/
def State.checkDepth24 (s : State) : Check := ⟨s.bpp != 24#6, .eDepth⟩

/-- `E_TRUNC` of SCAN.IN: LEN, unsigned, against the unbounded DISK_BYTES (60_exceptions.md R234). -/
def State.checkTrunc (s : State) : Check := ⟨decide (s.len.toNat < s.diskBytes), .eTrunc⟩

/-- `E_KERNEL` of every convolution of size n: the image is smaller than the kernel (41_convolution.md R146). -/
def State.smallerThan (s : State) (n : Nat) : Bool := decide (s.w < n) || decide (s.h < n)

/-- `E_KERNEL` of a preset of size n (60_exceptions.md R233). -/
def State.checkPreset (s : State) (n : Nat) : Check := ⟨s.smallerThan n, .eKernel⟩

/-- `E_KERNEL` of CONV.K n (41_convolution.md R146, R147). -/
def State.checkKernel (s : State) (n : Nat) : Check :=
  ⟨decide (n % 2 = 0) || (decide (n ≠ 3) && decide (n ≠ 5)) || s.kdiv == 0#16 || s.smallerThan n, .eKernel⟩

/-- `E_ADDR` of a command with one region (60_exceptions.md R235). -/
def State.checkAddr (s : State) (r : Region) : Check := ⟨!s.inRange r, .eAddr⟩

/-- `E_ADDR` of a command with two regions (60_exceptions.md R235). -/
def State.checkAddr2 (s : State) (a b : Region) : Check := ⟨!s.inRange a || !s.inRange b, .eAddr⟩

/-- `E_ALIAS` (60_exceptions.md R236). -/
def checkAlias (a b : Region) : Check := ⟨a.overlaps b, .eAlias⟩

/-! ### Kernels -/

/-- A kernel: its size N, its N×N signed numerators row-major, and its divisor (41_convolution.md R140). -/
structure Kernel where
  size : Nat
  num : List Int
  div : Nat
deriving DecidableEq, Repr

/-- `KM[i][j]`, row i, column j (41_convolution.md R140). -/
def Kernel.coeff (k : Kernel) (i j : Nat) : Int := k.num.getD (i * k.size + j) 0

/-- The user kernel of size n: KN[0 .. n×n−1] with stride n, over KDIV (10_state.md R33, 41_convolution.md R140). -/
def State.userKernel (s : State) (n : Nat) : Kernel := ⟨n, s.kn.toList.map BitVec.toInt, s.kdiv.toNat⟩

/-- CONV.BOX3's kernel (41_convolution.md R151). -/
def box3 : Kernel := ⟨3, [1, 1, 1, 1, 1, 1, 1, 1, 1], 9⟩

/-- CONV.GAUSS3's kernel (41_convolution.md R152). -/
def gauss3 : Kernel := ⟨3, [1, 2, 1, 2, 4, 2, 1, 2, 1], 16⟩

/-- CONV.GAUSS5's kernel (41_convolution.md R153). -/
def gauss5 : Kernel :=
  ⟨5, [1, 4, 6, 4, 1, 4, 16, 24, 16, 4, 6, 24, 36, 24, 6, 4, 16, 24, 16, 4, 1, 4, 6, 4, 1], 256⟩

/-- CONV.EDGE's kernel (41_convolution.md R154). -/
def edge3 : Kernel := ⟨3, [-1, -1, -1, -1, 8, -1, -1, -1, -1], 1⟩

/-- CONV.EMBOSS's kernel: the implementation's parameter (41_convolution.md R155, log entry 4). -/
def State.emboss (s : State) : Kernel :=
  ⟨3, s.params.embossKn.toList.map BitVec.toInt, s.params.embossKdiv.toNat⟩

/-- CONV.SHARP's kernel (41_convolution.md R156). -/
def sharp3 : Kernel := ⟨3, [0, -1, 0, -1, 5, -1, 0, -1, 0], 1⟩

end Sys2Proof.Machine
end

