-- ==== Sys2Proof/Machine/Ops.lean ====
section
/-! DEFINITION. The named operations over memory and registers: data memory (20_memory.md R60 to R66), acceptance of a
command, error entry (taking the one kind of exception the block has) and its acknowledge, completion
(44_system.md R220 to R222, 60_exceptions.md R238, R240), and the effect of a command that performs, with what a
broken ownership hazard does to it (70_reset_and_hazards.md R270). -/

namespace Sys2Proof.Machine

/-! ### Data memory -/

/-- What a byte no pair lists reads as. The spec leaves memory at power-up unspecified (93_implementation_defined.md
U2); the model names 0 (DESIGN CHOICE, unsafe; log entry 6). -/
def unlisted : Byte := 0#8

/-- `MemRead(a, 1)` (00_scope.md R10, 20_memory.md R63). -/
def Memory.read : Memory → Nat → Byte
  | [], _ => unlisted
  | (k, v) :: rest, a => if a < k then unlisted else if a = k then v else Memory.read rest a

/-- `MemWrite(a, 1, v)` (00_scope.md R10, 20_memory.md R63), keeping the canonical form. -/
def Memory.write : Memory → Nat → Byte → Memory
  | [], a, v => if v = unlisted then [] else [(a, v)]
  | (k, u) :: rest, a, v =>
    if a < k then (if v = unlisted then (k, u) :: rest else (a, v) :: (k, u) :: rest)
    else if a = k then (if v = unlisted then rest else (a, v) :: rest)
    else (k, u) :: Memory.write rest a v

/-- Byte writes in the order listed. -/
def Memory.writeAll (m : Memory) (cells : List Host.Cell) : Memory :=
  cells.foldl (fun m c => m.write c.1 c.2) m

/-- The canonical form: addresses strictly rising, no pair that equals what an unlisted address reads as. -/
def Memory.wf : Memory → Bool
  | [] => true
  | [(_, v)] => v != unlisted
  | (k, v) :: (k', v') :: rest => v != unlisted && decide (k < k') && Memory.wf ((k', v') :: rest)

/-- `MemRead(a, 4)`: four byte reads, the least significant byte at the lowest address (20_memory.md R65, R66). -/
def Memory.readWord (m : Memory) (a : Nat) : Word :=
  m.read (a + 3) ++ (m.read (a + 2) ++ (m.read (a + 1) ++ m.read a))

/-- `MemWrite(a, 4, v)` as its four byte writes, little-endian (00_scope.md R10, 20_memory.md R65, R66). -/
def wordCells (a : Nat) (v : Word) : List Host.Cell :=
  [(a, v.extractLsb' 0 8), (a + 1, v.extractLsb' 8 8), (a + 2, v.extractLsb' 16 8), (a + 3, v.extractLsb' 24 8)]

/-! ### Life cycle of a command -/

/-- Acceptance of the word w (44_system.md R220). Every word is accepted, legal or not (30_encoding.md R96). The record
of what the host touches while the command runs starts empty. -/
def State.accept (s : State) (w : Word) : State :=
  { s with cmd := w, status := s.status.accepted, errcode := .noError, touched := [] }

/-- Error entry: how the block takes its one kind of exception (60_exceptions.md R238). The code goes to ERRCODE; ERR
and DONE rise, BUSY falls; nothing else changes: no saved state, no vector, no mode. -/
def State.enterError (s : State) (e : ErrCode) : State := { s with status := s.status.failed, errcode := e }

/-- The acknowledge of an error, the block's counterpart of a return: a W1C write of STATUS; ERRCODE keeps the code and
nothing is restored (60_exceptions.md R240). -/
def State.acknowledge (s : State) (v : Word) : State := { s with status := s.status.writeOneToClear v }

/-- Completion of a command that performed (44_system.md R222). -/
def State.complete (s : State) (fallback : Bool) : State := { s with status := s.status.completed fallback }

/-! ### Effects -/

/-- What a command that passed its checks does. Every value is computed from the state at acceptance: reading before
writing is one of the orders 20_memory.md R79 allows, and every allowed order gives the same final state
(log entry 14). -/
structure Effect where
  /-- The source region, which the engine owns while the command runs (70_reset_and_hazards.md R270). -/
  source : Region
  /-- The bytes of the written region with their final values. -/
  writes : List Host.Cell
  /-- The new histogram table, if the command writes it. -/
  hist : Option HistTable
  /-- The new remap table, if the command writes it. -/
  map : Option MapTable
  /-- The command took the identity fallback: STATUS.DEGEN rises at its completion (EQMAP and EQ, 42_histogram_eq.md
  R176). -/
  fallback : Bool

/-- A command that only writes memory. -/
def memoryEffect (source : Region) (writes : List Host.Cell) : Effect := ⟨source, writes, none, none, false⟩

/-- The host has written address a since the command in flight was accepted. -/
def State.hostWrote (s : State) (a : Nat) : Bool := s.touched.any fun c => c.1 == a

/-- Data memory with every byte of region r that the host has overwritten since acceptance put back: over r, the memory
the command was accepted with (44_system.md R220: the values a command sees are those at acceptance). -/
def State.memAtAcceptance (s : State) (r : Region) : Memory :=
  s.mem.writeAll (s.touched.filter fun c => r.contains c.1)

/-- The host wrote a byte of the command's source region while the command ran: hazard (a) of
70_reset_and_hazards.md R270. -/
def Effect.sourceTouched (e : Effect) (s : State) : Bool := s.touched.any fun c => e.source.contains c.1

/-- The host wrote a byte of the command's destination region while the command ran: hazard (b) of
70_reset_and_hazards.md R270. -/
def Effect.destTouched (e : Effect) (s : State) : Bool := e.writes.any fun c => s.hostWrote c.1

/-- The host broke the ownership hazard for this command. -/
def Effect.disturbed (e : Effect) (s : State) : Bool := e.sourceTouched s || e.destTouched s

/-- One of the two values a byte may have; which one is free where they differ (93_implementation_defined.md U2, U4). -/
def eitherByte (draw a : Nat) (old new : Byte) : Byte :=
  if old = new then old else if Config.freeBit draw a then new else old

/-- Hazard (a): every byte and table entry the command writes is unspecified, nothing else is affected: no other byte
and no register, so the flag DEGEN stays what it would have been (70_reset_and_hazards.md R270,
93_implementation_defined.md U4; log entry 8). -/
def Effect.allFree (e : Effect) (draw : Nat) : Effect :=
  { e with
    writes := e.writes.map (fun c => (c.1, Config.freeByte draw c.1))
    hist := e.hist.map (fun _ => tabulate 256 (Config.freeWord draw))
    map := e.map.map (fun _ => tabulate 256 (Config.freeEntry draw)) }

/-- Hazard (b): a byte the host wrote in the destination holds the host's or the engine's value
(70_reset_and_hazards.md R270, 93_implementation_defined.md U4; log entry 9). -/
def Effect.hostOrEngine (e : Effect) (s : State) : Effect :=
  { e with
    writes := e.writes.map (fun c =>
      (c.1, if s.hostWrote c.1 then eitherByte s.draws c.1 (s.mem.read c.1) c.2 else c.2)) }

/-- The effect with the ownership hazard accounted for: a host that keeps 70_reset_and_hazards.md R270 gets the
command's own effect. -/
def Effect.resolve (e : Effect) (s : State) : Effect :=
  if e.sourceTouched s then e.allFree s.draws else if e.destTouched s then e.hostOrEngine s else e

/-- The operation's writes (10_state.md R43). -/
def State.apply (s : State) (e : Effect) : State :=
  { s with
    mem := s.mem.writeAll (e.resolve s).writes
    hist := ((e.resolve s).hist).getD s.hist
    map := ((e.resolve s).map).getD s.map
    draws := if e.disturbed s then s.draws + 1 else s.draws }

/-- The operation, then completion with its flags (44_system.md R222). -/
def State.perform (s : State) (e : Effect) : State := (s.apply e).complete e.fallback

/-- A command from the end of its acceptance to its completion: the check phase, then error entry or the operation
(44_system.md R221, R222). -/
def runCommand (s : State) (checks : List Check) (e : Effect) : Host.Outcome State Fault Refusal :=
  match firstError checks with
  | some code => .next (s.enterError code)
  | none => .next (s.perform e)

/-! ### Registers -/

/-- The registers of the window (10_state.md R40). -/
inductive Reg where
  | id
  | ctrl
  | status
  | errcode
  | cmd
  | src
  | dst
  | width
  | height
  | fmt
  | len
  | kdiv
  | kn (k : Fin 25)
  | hist (k : Fin 256)
  | map (k : Fin 256)
  | reserved
deriving DecidableEq, Repr

/-- The register map (10_state.md R40, R41): the register at byte offset 4 × i. -/
def regAtIndex (i : Nat) : Reg :=
  match i with
  | 0 => .id
  | 1 => .ctrl
  | 2 => .status
  | 3 => .errcode
  | 4 => .cmd
  | 5 => .src
  | 6 => .dst
  | 7 => .width
  | 8 => .height
  | 9 => .fmt
  | 10 => .len
  | 11 => .kdiv
  | i =>
    if hk : 16 ≤ i ∧ i - 16 < 25 then .kn ⟨i - 16, hk.2⟩
    else if hh : 256 ≤ i ∧ i - 256 < 256 then .hist ⟨i - 256, hh.2⟩
    else if hm : 512 ≤ i ∧ i - 512 < 256 then .map ⟨i - 512, hm.2⟩
    else .reserved

/-- The register at address bits 11:2 of the register port (20_memory.md R62, R64). -/
def regAt (index : BitVec 10) : Reg := regAtIndex index.toNat

/-- The identification constant (10_state.md R21). -/
def idValue : Word := 0x49504501#32

/-- FMT as the register port reads it: BPP in bits 5:0, TD in bit 8, the rest 0 (10_state.md R30). -/
def State.fmtWord (s : State) : Word := BitVec.ofNat 32 (s.bpp.toNat + 256 * s.td.toNat)

/-- The word a register holds, reserved bits 0, KN sign-extended (44_system.md R226). -/
def State.regValue (s : State) : Reg → Word
  | .id => idValue
  | .ctrl => BitVec.ofNat 32 s.ie.toNat
  | .status => s.status.toWord
  | .errcode => BitVec.ofNat 32 s.errcode.code
  | .cmd => s.cmd
  | .src => s.src
  | .dst => s.dst
  | .width => s.width.zeroExtend 32
  | .height => s.height.zeroExtend 32
  | .fmt => s.fmtWord
  | .len => s.len
  | .kdiv => s.kdiv.zeroExtend 32
  | .kn k => s.kn[k].signExtend 32
  | .hist k => s.hist[k]
  | .map k => s.map[k].zeroExtend 32
  | .reserved => 0#32

/-- The word a register read returns: while BUSY = 1, HIST and MAP read free values, MAP with bits 31:8 zero
(44_system.md R226, 93_implementation_defined.md U3; log entry 7). -/
def State.readValue (s : State) (r : Reg) : Word :=
  match s.status.busy, r with
  | true, .hist k => Config.freeWord s.draws k
  | true, .map k => (Config.freeEntry s.draws k).zeroExtend 32
  | _, r => s.regValue r

/-- The register is one of the two tables, whose reads while BUSY = 1 draw a free value. -/
def Reg.isTable : Reg → Bool
  | .hist _ => true
  | .map _ => true
  | _ => false

/-- `RegRead` (44_system.md R226): it returns a word and changes no register, no table and no memory. -/
def State.regRead (s : State) (r : Reg) : State :=
  { s with
    regRdata := s.readValue r
    draws := if s.status.busy && r.isTable then s.draws + 1 else s.draws }

/-- `RegWrite` while BUSY = 0 (44_system.md R227); a CMD write is acceptance (R220). -/
def State.regWriteIdle (s : State) (r : Reg) (v : Word) : State :=
  match r with
  | .id => s
  | .ctrl => { s with ie := v.getLsbD 0 }
  | .status => s.acknowledge v
  | .errcode => s
  | .cmd => s.accept v
  | .src => { s with src := v }
  | .dst => { s with dst := v }
  | .width => { s with width := v.extractLsb' 0 16 }
  | .height => { s with height := v.extractLsb' 0 16 }
  | .fmt => { s with bpp := v.extractLsb' 0 6, td := v.getLsbD 8 }
  | .len => { s with len := v }
  | .kdiv => { s with kdiv := v.extractLsb' 0 16 }
  | .kn k => { s with kn := s.kn.set k (v.extractLsb' 0 16) }
  | .hist k => { s with hist := s.hist.set k v }
  | .map k => { s with map := s.map.set k (v.extractLsb' 0 8) }
  | .reserved => s

/-- `RegWrite` while BUSY = 1: CTRL and STATUS act as when idle, a reserved offset is ignored, a write to any other
defined register is dropped and sets BWERR (44_system.md R224). -/
def State.regWriteBusy (s : State) (r : Reg) (v : Word) : State :=
  match r with
  | .ctrl => s.regWriteIdle .ctrl v
  | .status => s.regWriteIdle .status v
  | .reserved => s
  | _ => { s with status := s.status.busyWrite }

/-- `RegWrite` (44_system.md R224, R227). -/
def State.regWrite (s : State) (r : Reg) (v : Word) : State :=
  if s.status.busy then s.regWriteBusy r v else s.regWriteIdle r v

end Sys2Proof.Machine
end

