-- ==== Sys2Proof/Machine/Colour.lean ====
section
/-! DEFINITION. The colour converter: rgb2yuv, yidx, yuv2rgb (43_colour.md R200 to R202), and RGB2YUV, YUV2RGB. -/

namespace Sys2Proof.Machine

/-- A pixel's luminance and chrominance, each multiplied by 100000 (43_colour.md R200). -/
structure Yuv where
  y5 : Int
  u5 : Int
  v5 : Int
deriving DecidableEq, Repr

/-- A pixel's three channel bytes (20_memory.md R68). -/
structure Rgb where
  red : Byte
  green : Byte
  blue : Byte
deriving DecidableEq, Repr

/-- `rgb2yuv`: exact, nothing is rounded (43_colour.md R200). -/
def rgb2yuv (p : Rgb) : Yuv :=
  let r : Int := p.red.toNat
  let g : Int := p.green.toNat
  let b : Int := p.blue.toNat
  { y5 := 29900 * r + 58700 * g + 11400 * b
    u5 := -14713 * r - 28886 * g + 43600 * b
    v5 := 61500 * r - 51499 * g - 10001 * b }

/-- `yidx`: the table index of a luminance, to the nearest, clamped (43_colour.md R201). -/
def yidx (y5 : Int) : Nat := (clamp (rdiv y5 100000) 0 255).toNat

/-- `yuv2rgb`: exact at scale 10^10, each channel rounded to the nearest, then clamped (43_colour.md R202). -/
def yuv2rgb (p : Yuv) : Rgb :=
  let r10 := 100000 * p.y5 + 113983 * p.v5
  let g10 := 100000 * p.y5 - 39465 * p.u5 - 58060 * p.v5
  let b10 := 100000 * p.y5 + 203211 * p.u5
  { red := clampByte (rdiv r10 10000000000)
    green := clampByte (rdiv g10 10000000000)
    blue := clampByte (rdiv b10 10000000000) }

/-- The 24-bit pixel p of the store at B (20_memory.md R68). -/
def Memory.rgb (m : Memory) (base p : Nat) : Rgb :=
  ⟨m.read (rgbAddr base p 0), m.read (rgbAddr base p 1), m.read (rgbAddr base p 2)⟩

/-- The writes that put a pixel at index p of the 24-bit store at B (20_memory.md R68). -/
def rgbCells (base p : Nat) (c : Rgb) : List Host.Cell :=
  [(rgbAddr base p 0, c.red), (rgbAddr base p 1, c.green), (rgbAddr base p 2, c.blue)]

/-- The record of pixel p of the YUV buffer at B: three signed 32-bit words (20_memory.md R70, 43_colour.md R206). -/
def Memory.yuv (m : Memory) (base p : Nat) : Yuv :=
  ⟨(m.readWord (yuvAddr base p)).toInt, (m.readWord (yuvAddr base p + 4)).toInt,
    (m.readWord (yuvAddr base p + 8)).toInt⟩

/-- The writes that put a record at index p of the YUV buffer at B (20_memory.md R70, 43_colour.md R205). -/
def yuvCells (base p : Nat) (c : Yuv) : List Host.Cell :=
  wordCells (yuvAddr base p) (BitVec.ofInt 32 c.y5) ++
    (wordCells (yuvAddr base p + 4) (BitVec.ofInt 32 c.u5) ++
      wordCells (yuvAddr base p + 8) (BitVec.ofInt 32 c.v5))

/-- RGB2YUV's check phase (43_colour.md R205). -/
def rgb2yuvChecks (s : State) : List Check :=
  [s.checkDepth24, s.checkAddr2 s.srcRgb s.dstYuv, checkAlias s.srcRgb s.dstYuv]

/-- RGB2YUV's writes (43_colour.md R205). -/
def rgb2yuvWrites (s : State) : List Host.Cell :=
  (List.range s.npix).flatMap fun p => yuvCells s.dstAddr p (rgb2yuv (s.mem.rgb s.srcAddr p))

/-- RGB2YUV (43_colour.md R205). -/
def execRgb2yuv (s : State) : Host.Outcome State Fault Refusal :=
  runCommand s (rgb2yuvChecks s) (memoryEffect s.srcRgb (rgb2yuvWrites s))

/-- YUV2RGB's check phase (43_colour.md R206). -/
def yuv2rgbChecks (s : State) : List Check :=
  [s.checkDepth24, s.checkAddr2 s.srcYuv s.dstRgb, checkAlias s.srcYuv s.dstRgb]

/-- YUV2RGB's writes (43_colour.md R206). -/
def yuv2rgbWrites (s : State) : List Host.Cell :=
  (List.range s.npix).flatMap fun p => rgbCells s.dstAddr p (yuv2rgb (s.mem.yuv s.srcAddr p))

/-- YUV2RGB (43_colour.md R206). -/
def execYuv2rgb (s : State) : Host.Outcome State Fault Refusal :=
  runCommand s (yuv2rgbChecks s) (memoryEffect s.srcYuv (yuv2rgbWrites s))

end Sys2Proof.Machine
end

