-- ==== Sys2Proof/Machine/Convolution.lean ====
section
/-! DEFINITION. The convolution engine: CONV.K and the six presets (41_convolution.md). -/

namespace Sys2Proof.Machine

/-- `nb(cx, cy, c)`: a sample of the source store, its coordinates clamped to the image (41_convolution.md R141,
R142). -/
def State.neighbour (s : State) (cx cy : Int) (c : Nat) : Int :=
  ((s.mem.read (s.pixelAddr s.srcAddr (clamp cx 0 (s.w - 1)).toNat (clamp cy 0 (s.h - 1)).toNat c)).toNat : Int)

/-- S(x, y, c): the exact weighted sum, not flipped: row i of the kernel moves with y, column j with x
(41_convolution.md R143). -/
def State.convSum (s : State) (k : Kernel) (x y c : Nat) : Int :=
  ((List.range k.size).map fun (i : Nat) =>
    ((List.range k.size).map fun (j : Nat) =>
      k.coeff i j * s.neighbour ((x : Int) + j - (k.size / 2 : Nat)) ((y : Int) + i - (k.size / 2 : Nat)) c).sum).sum

/-- out(x, y, c): one rounding toward zero of the exact quotient, then saturation (41_convolution.md R143). -/
def State.convByte (s : State) (k : Kernel) (x y c : Nat) : Byte := clampByte (tdiv (s.convSum k x y c) k.div)

/-- The writes of every convolution: each channel of each pixel of the new store (41_convolution.md R144, R147). -/
def convWrites (s : State) (k : Kernel) : List Host.Cell :=
  (List.range s.h).flatMap fun y =>
    (List.range s.w).flatMap fun x =>
      (List.range s.bppb).map fun c => (s.pixelAddr s.dstAddr x y c, s.convByte k x y c)

/-- What every convolution does once its checks have passed (41_convolution.md R145, R147). -/
def convEffect (s : State) (k : Kernel) : Effect := memoryEffect s.srcStore (convWrites s k)

/-- CONV.K's check phase (41_convolution.md R146, R147). -/
def convKChecks (n : Nat) (s : State) : List Check :=
  [s.checkDepth, s.checkKernel n, s.checkAddr2 s.srcStore s.dstStore, checkAlias s.srcStore s.dstStore]

/-- The check phase of a preset of size n (41_convolution.md R150). -/
def presetChecks (n : Nat) (s : State) : List Check :=
  [s.checkDepth, s.checkPreset n, s.checkAddr2 s.srcStore s.dstStore, checkAlias s.srcStore s.dstStore]

/-- CONV.K n (41_convolution.md R147). -/
def execConvK (n : Nat) (s : State) : Host.Outcome State Fault Refusal :=
  runCommand s (convKChecks n s) (convEffect s (s.userKernel n))

/-- CONV.BOX3 (41_convolution.md R150, R151). -/
def execConvBox3 (s : State) : Host.Outcome State Fault Refusal :=
  runCommand s (presetChecks 3 s) (convEffect s box3)

/-- CONV.GAUSS3 (41_convolution.md R150, R152). -/
def execConvGauss3 (s : State) : Host.Outcome State Fault Refusal :=
  runCommand s (presetChecks 3 s) (convEffect s gauss3)

/-- CONV.GAUSS5 (41_convolution.md R150, R153). -/
def execConvGauss5 (s : State) : Host.Outcome State Fault Refusal :=
  runCommand s (presetChecks 5 s) (convEffect s gauss5)

/-- CONV.EDGE (41_convolution.md R150, R154). -/
def execConvEdge (s : State) : Host.Outcome State Fault Refusal :=
  runCommand s (presetChecks 3 s) (convEffect s edge3)

/-- CONV.EMBOSS (41_convolution.md R150, R155): the kernel is the implementation's parameter. -/
def execConvEmboss (s : State) : Host.Outcome State Fault Refusal :=
  runCommand s (presetChecks 3 s) (convEffect s s.emboss)

/-- CONV.SHARP (41_convolution.md R150, R156). -/
def execConvSharp (s : State) : Host.Outcome State Fault Refusal :=
  runCommand s (presetChecks 3 s) (convEffect s sharp3)

end Sys2Proof.Machine
end

