-- ==== Sys2Proof/Machine/Histogram.lean ====
section
/-! DEFINITION. The histogram accumulator and CDF remapper: HIST, EQMAP, REMAP, EQ (42_histogram_eq.md). -/

namespace Sys2Proof.Machine

/-- The sample of pixel p of the store at SRC: the stored byte of an 8-bit pixel, the luminance index of a 24-bit one
(42_histogram_eq.md R171). -/
def State.sample (s : State) (p : Nat) : Nat :=
  if s.bpp = 8#6 then (s.mem.read (s.srcAddr + p)).toNat
  else yidx (rgb2yuv (s.mem.rgb s.srcAddr p)).y5

/-- The samples of the whole store, one per pixel (42_histogram_eq.md R171). -/
def State.samples (s : State) : List Nat := (List.range s.npix).map s.sample

/-- The histogram of the store: bin v counts the samples equal to v; no bin overflows, since NPIX < 2^32
(42_histogram_eq.md R172). -/
def State.histogram (s : State) : HistTable := tabulate 256 fun v => BitVec.ofNat 32 (s.samples.count v)

/-- The check phase of HIST, REMAP and EQ (42_histogram_eq.md R172, R177, R178). -/
def inPlaceChecks (s : State) : List Check := [s.checkDepth, s.checkAddr s.srcStore]

/-- HIST (42_histogram_eq.md R172). -/
def execHist (s : State) : Host.Outcome State Fault Refusal :=
  runCommand s (inPlaceChecks s) ⟨s.srcStore, [], some s.histogram, none, false⟩

/-- `MAPVAL(i)` for a histogram with a lowest level (42_histogram_eq.md R175). -/
def mapValue (h : HistTable) (m i : Nat) : Byte :=
  if cdf h i < m then 0#8
  else BitVec.ofInt 8 (rdiv (((cdf h i : Int) - m) * 255) ((sampleCount h : Int) - m))

/-- The remap table of a histogram: the identity for a degenerate one, else `MAPVAL` (42_histogram_eq.md R174 to
R176). -/
def remapTable (h : HistTable) : MapTable :=
  match cdfMin h with
  | none => tabulate 256 (BitVec.ofNat 8)
  | some m => if sampleCount h = m then tabulate 256 (BitVec.ofNat 8) else tabulate 256 (mapValue h m)

/-- EQMAP: no check, no operand but HIST (42_histogram_eq.md R174). -/
def execEqmap (s : State) : Host.Outcome State Fault Refusal :=
  runCommand s [] ⟨noRegion, [], none, some (remapTable s.hist), degenerate s.hist⟩

/-- The table entry of sample v (42_histogram_eq.md R177). -/
def mapEntry (t : MapTable) (v : Nat) : Byte := t.toList.getD v 0#8

/-- The new pixel of a 24-bit pixel: its luminance index replaced by the table entry, its own chrominance kept
(42_histogram_eq.md R177). -/
def remapPixel (t : MapTable) (p : Rgb) : Rgb :=
  let c := rgb2yuv p
  yuv2rgb ⟨100000 * ((mapEntry t (yidx c.y5)).toNat : Int), c.u5, c.v5⟩

/-- The writes of REMAP with the table t: a pixel's new value depends on its old value and on t only
(42_histogram_eq.md R177). -/
def remapWrites (s : State) (t : MapTable) : List Host.Cell :=
  (List.range s.npix).flatMap fun p =>
    if s.bpp = 8#6 then [(s.srcAddr + p, mapEntry t (s.mem.read (s.srcAddr + p)).toNat)]
    else rgbCells s.srcAddr p (remapPixel t (s.mem.rgb s.srcAddr p))

/-- REMAP (42_histogram_eq.md R177). -/
def execRemap (s : State) : Host.Outcome State Fault Refusal :=
  runCommand s (inPlaceChecks s) (memoryEffect s.srcStore (remapWrites s s.map))

/-- EQ took the identity fallback: the histogram of the store as it was at acceptance is degenerate. STATUS is a register,
which a host that writes the store meanwhile does not affect (42_histogram_eq.md R176, R178; 70_reset_and_hazards.md
R270; log entry 8). -/
def State.equalizeFallback (s : State) : Bool :=
  degenerate { s with mem := s.memAtAcceptance s.srcStore }.histogram

/-- EQ: HIST, then EQMAP, then REMAP on the same store, as one command (42_histogram_eq.md R178). -/
def execEqualize (s : State) : Host.Outcome State Fault Refusal :=
  runCommand s (inPlaceChecks s)
    ⟨s.srcStore, remapWrites s (remapTable s.histogram), some s.histogram, some (remapTable s.histogram),
      s.equalizeFallback⟩

end Sys2Proof.Machine
end

