-- ==== Sys2Proof/Machine/Scanline.lean ====
section
/-! DEFINITION. The scanline unit: SCAN.IN and SCAN.OUT (40_scanline.md). -/

namespace Sys2Proof.Machine

/-- SCAN.IN's check phase (40_scanline.md R120). -/
def scanInChecks (s : State) : List Check :=
  [s.checkDepth, s.checkTrunc, s.checkAddr2 s.srcDisk s.dstStore, checkAlias s.srcDisk s.dstStore]

/-- SCAN.IN's writes: byte k of pixel x of on-disk row r goes to its channel of pixel (x, yrow r); padding bytes are
not read (40_scanline.md R120). -/
def scanInWrites (s : State) : List Host.Cell :=
  (List.range s.h).flatMap fun r =>
    (List.range s.w).flatMap fun x =>
      (List.range s.bppb).map fun k =>
        (s.pixelAddr s.dstAddr x (s.yrow r) (s.diskChannel k), s.mem.read (s.diskAddr s.srcAddr x r k))

/-- SCAN.IN (40_scanline.md R120). -/
def execScanIn (s : State) : Host.Outcome State Fault Refusal :=
  runCommand s (scanInChecks s) (memoryEffect s.srcDisk (scanInWrites s))

/-- SCAN.OUT's check phase (40_scanline.md R121); LEN is not read. -/
def scanOutChecks (s : State) : List Check :=
  [s.checkDepth, s.checkAddr2 s.srcStore s.dstDisk, checkAlias s.srcStore s.dstDisk]

/-- SCAN.OUT's writes: the pixel bytes of each row, then its padding bytes 0 (40_scanline.md R121). -/
def scanOutWrites (s : State) : List Host.Cell :=
  (List.range s.h).flatMap fun r =>
    ((List.range s.w).flatMap fun x =>
      (List.range s.bppb).map fun k =>
        (s.diskAddr s.dstAddr x r k, s.mem.read (s.pixelAddr s.srcAddr x (s.yrow r) (s.diskChannel k)))) ++
    (List.range s.padb).map fun p => (s.padAddr s.dstAddr r p, 0#8)

/-- SCAN.OUT (40_scanline.md R121). -/
def execScanOut (s : State) : Host.Outcome State Fault Refusal :=
  runCommand s (scanOutChecks s) (memoryEffect s.srcStore (scanOutWrites s))

end Sys2Proof.Machine
end

