-- ==== Sys2Proof/Machine/System.lean ====
section
/-! DEFINITION. System operations: NOP (44_system.md R229). -/

namespace Sys2Proof.Machine

/-- NOP: no operand, no check, no operation; the life cycle alone (44_system.md R229). -/
def execNop (s : State) : Host.Outcome State Fault Refusal := runCommand s [] (memoryEffect noRegion [])

end Sys2Proof.Machine
end

