-- ==== Sys2Proof/Machine/Dispatch.lean ====
section
/-! DEFINITION. The meaning of every command: its check phase, its operation and its completion (44_system.md R221,
R222), from the state at acceptance. -/

namespace Sys2Proof.Machine

def exec (i : Instr) (s : State) : Host.Outcome State Fault Refusal :=
  match i with
  | .nop => Sys2Proof.Machine.execNop s
  | .scanIn => Sys2Proof.Machine.execScanIn s
  | .scanOut => Sys2Proof.Machine.execScanOut s
  | .convK n => Sys2Proof.Machine.execConvK n s
  | .convBox3 => Sys2Proof.Machine.execConvBox3 s
  | .convGauss3 => Sys2Proof.Machine.execConvGauss3 s
  | .convGauss5 => Sys2Proof.Machine.execConvGauss5 s
  | .convEdge => Sys2Proof.Machine.execConvEdge s
  | .convEmboss => Sys2Proof.Machine.execConvEmboss s
  | .convSharp => Sys2Proof.Machine.execConvSharp s
  | .hist => Sys2Proof.Machine.execHist s
  | .eqmap => Sys2Proof.Machine.execEqmap s
  | .remap => Sys2Proof.Machine.execRemap s
  | .equalize => Sys2Proof.Machine.execEqualize s
  | .rgb2yuv => Sys2Proof.Machine.execRgb2yuv s
  | .yuv2rgb => Sys2Proof.Machine.execYuv2rgb s

end Sys2Proof.Machine
end

