-- ==== Sys2Proof/Machine/Engine.lean ====
section
/-! DEFINITION. The two agents of the block: the engine's turn (44_system.md R221 to R223), the host's actions
(44_system.md R224 to R227, 20_memory.md R60, 70_reset_and_hazards.md R270) and the reset pulse
(70_reset_and_hazards.md R260, R262). -/

namespace Sys2Proof.Machine

/-- The engine's turn: with a command in flight, the word in CMD is decoded, an illegal one fails with `E_CMD`
(30_encoding.md R96), a legal one runs to completion; with none, the engine is idle (60_exceptions.md R249). -/
def engineTurn (s : State) : Host.Outcome State Fault Refusal :=
  if s.status.busy then
    match decode s.cmd with
    | .ok i => exec i s
    | .error _ => .next (s.enterError .eCmd)
  else .next s

/-- Data memory as the command in flight would leave it if it completed now: its written region is what a host read or
a reset in mid-command can catch half done (70_reset_and_hazards.md R262, R270 c). -/
def State.finalMem (s : State) : Memory :=
  match engineTurn s with
  | .next t => t.mem
  | _ => s.mem

/-- The host loads byte a of data memory. While BUSY = 1 a byte the command in flight writes reads as its old or its
new value (70_reset_and_hazards.md R270 c; log entry 9); every other byte reads as it is. -/
def State.hostLoad (s : State) (a : Nat) : State :=
  if s.status.busy then
    { s with hostRdata := eitherByte s.draws a (s.mem.read a) (s.finalMem.read a), draws := s.draws + 1 }
  else { s with hostRdata := s.mem.read a }

/-- The host stores byte v at a. While BUSY = 1 the address is recorded with the byte that was there, since the command
in flight may own it (70_reset_and_hazards.md R270 a, b). -/
def State.hostStore (s : State) (a : Nat) (v : Byte) : State :=
  { s with
    mem := s.mem.write a v
    touched := if s.status.busy then (a, s.mem.read a) :: s.touched else s.touched }

/-- The address exists: it lies below `MEM_BYTES` (20_memory.md R60). -/
def State.addressOk (s : State) (a : Nat) : Bool := decide (a < s.params.memBytes)

/-- Data memory in which each byte that old and new disagree on is, freely and independently, one or the other
(70_reset_and_hazards.md R262, 93_implementation_defined.md U2; log entry 10). -/
def Memory.mix (old new : Memory) (draw : Nat) : Memory :=
  old.writeAll ((old ++ new).map fun c => (c.1, eitherByte draw c.1 (old.read c.1) (new.read c.1)))

/-- Data memory after a reset pulse: untouched, but that a command in flight may have written any part of its written
region (70_reset_and_hazards.md R260, R262). -/
def State.memAfterReset (s : State) : Memory :=
  if s.status.busy then s.mem.mix s.finalMem (s.draws + 1) else s.mem

/-- A pulse of `rst_n`: the command in flight is abandoned, every register takes its reset value, HIST and MAP become
free, memory is `memAfterReset` (10_state.md R42, 70_reset_and_hazards.md R260, R262; log entry 10). What the host has
still to do and what it has read are not the block's, and stay. -/
def State.pulseReset (s : State) : State :=
  { State.reset with
    params := s.params
    hist := tabulate 256 (Config.freeWord (s.draws + 1))
    map := tabulate 256 (Config.freeEntry (s.draws + 1))
    mem := s.memAfterReset
    inputs := s.inputs
    draws := s.draws + 2
    regRdata := s.regRdata
    hostRdata := s.hostRdata }

/-- One input of the machine. -/
def perform (e : Input) (s : State) : Host.Outcome State Fault Refusal :=
  match e with
  | .regRead index => .next (s.regRead (regAt index))
  | .regWrite index v => .next (s.regWrite (regAt index) v)
  | .memRead a => if s.addressOk a then .next (s.hostLoad a) else .fault (.noSuchAddress a)
  | .memWrite a v => if s.addressOk a then .next (s.hostStore a v) else .fault (.noSuchAddress a)
  | .engine => engineTurn s
  | .reset => .next s.pulseReset

/-- What one step does: the first pending input, or, when none is pending, the engine's turn: its completion is always
enabled while BUSY = 1 (70_reset_and_hazards.md R272; log entry 1). -/
def stepState (s : State) : Host.Outcome State Fault Refusal :=
  match s.inputs with
  | [] => engineTurn s
  | e :: rest => perform e { s with inputs := rest }

/-- The state in which the command word w has just been accepted and the engine moves next (44_system.md R220). -/
def State.acceptNext (s : State) (w : Word) : State :=
  { s.accept w with inputs := if s.inputs.isEmpty then [] else .engine :: s.inputs }

end Sys2Proof.Machine
end

