-- ==== Sys2Proof/Machine/Step.lean ====
section
/-! DEFINITION. One step of the machine, and where a command word enters it (10_state.md R25, R36; 20_memory.md R77). -/

namespace Sys2Proof.Machine

/-- One step: the first pending input, or the engine's turn (Machine/Engine.lean). -/
def step (s : State) : Host.Outcome State Fault Refusal := stepState s

/-- The state in which the command word of `nbits` bits `w` has just been accepted, so that the very next step runs it.
Nothing is fetched from memory: a word is latched by its acceptance (20_memory.md R77, 44_system.md R220; log entry
2). -/
def State.withFetchWord (s : State) (nbits w : Nat) : State := s.acceptNext (BitVec.ofNat 32 (w % 2 ^ nbits))

end Sys2Proof.Machine
end

