-- ==== Sys2Proof/Safety.lean ====
section
/-! DEFINITION. The terms claims about the machine are stated in: the invariant of a run, the check phase and the effect
of each command by name, the two kinds of completion, and a host that keeps the ownership hazard. -/

namespace Sys2Proof.Machine

/-- Every listed byte of data memory has an address that exists (20_memory.md R60). -/
def State.memInBounds (s : State) : Prop := ∀ c ∈ s.mem, c.1 < s.params.memBytes

/-- The invariants of STATUS and ERRCODE (10_state.md R23): while BUSY = 1 the other condition flags and the code are
clear; ERR = 1 goes with an error code; DEGEN = 1 goes with none. -/
def State.flagsOk (s : State) : Prop :=
  (s.status.busy = true →
    s.status.done = false ∧ s.status.err = false ∧ s.status.degen = false ∧ s.errcode = .noError) ∧
  (s.status.err = true → s.errcode ≠ .noError) ∧
  (s.status.degen = true → s.errcode = .noError ∧ s.status.err = false)

/-- The invariant of a run: canonical memory inside the address space, flags as 10_state.md R23 has them, a positive
emboss divisor (00_scope.md R5). -/
structure State.Inv (s : State) : Prop where
  memWf : s.mem.wf = true
  memBounds : s.memInBounds
  flags : s.flagsOk
  embossDiv : s.params.embossKdiv ≠ 0#16

/-- The check phase of each command (60_exceptions.md R237, the table). -/
def checksOf (i : Instr) (s : State) : List Check :=
  match i with
  | .nop => []
  | .scanIn => scanInChecks s
  | .scanOut => scanOutChecks s
  | .convK n => convKChecks n s
  | .convBox3 => presetChecks 3 s
  | .convGauss3 => presetChecks 3 s
  | .convGauss5 => presetChecks 5 s
  | .convEdge => presetChecks 3 s
  | .convEmboss => presetChecks 3 s
  | .convSharp => presetChecks 3 s
  | .hist => inPlaceChecks s
  | .eqmap => []
  | .remap => inPlaceChecks s
  | .equalize => inPlaceChecks s
  | .rgb2yuv => rgb2yuvChecks s
  | .yuv2rgb => yuv2rgbChecks s

/-- What each command does once its check phase has passed (10_state.md R43). -/
def effectOf (i : Instr) (s : State) : Effect :=
  match i with
  | .nop => memoryEffect noRegion []
  | .scanIn => memoryEffect s.srcDisk (scanInWrites s)
  | .scanOut => memoryEffect s.srcStore (scanOutWrites s)
  | .convK n => convEffect s (s.userKernel n)
  | .convBox3 => convEffect s box3
  | .convGauss3 => convEffect s gauss3
  | .convGauss5 => convEffect s gauss5
  | .convEdge => convEffect s edge3
  | .convEmboss => convEffect s s.emboss
  | .convSharp => convEffect s sharp3
  | .hist => ⟨s.srcStore, [], some s.histogram, none, false⟩
  | .eqmap => ⟨noRegion, [], none, some (remapTable s.hist), degenerate s.hist⟩
  | .remap => memoryEffect s.srcStore (remapWrites s s.map)
  | .equalize =>
    ⟨s.srcStore, remapWrites s (remapTable s.histogram), some s.histogram, some (remapTable s.histogram),
      s.equalizeFallback⟩
  | .rgb2yuv => memoryEffect s.srcRgb (rgb2yuvWrites s)
  | .yuv2rgb => memoryEffect s.srcYuv (yuv2rgbWrites s)

/-- The written region of each command (20_memory.md R71). -/
def writtenRegion (i : Instr) (s : State) : Region :=
  match i with
  | .nop => noRegion
  | .scanIn => s.dstStore
  | .scanOut => s.dstDisk
  | .convK _ => s.dstStore
  | .convBox3 => s.dstStore
  | .convGauss3 => s.dstStore
  | .convGauss5 => s.dstStore
  | .convEdge => s.dstStore
  | .convEmboss => s.dstStore
  | .convSharp => s.dstStore
  | .hist => noRegion
  | .eqmap => noRegion
  | .remap => s.srcStore
  | .equalize => s.srcStore
  | .rgb2yuv => s.dstYuv
  | .yuv2rgb => s.dstRgb

/-- The source region of each command (20_memory.md R71). -/
def sourceRegion (i : Instr) (s : State) : Region :=
  match i with
  | .nop => noRegion
  | .scanIn => s.srcDisk
  | .scanOut => s.srcStore
  | .convK _ => s.srcStore
  | .convBox3 => s.srcStore
  | .convGauss3 => s.srcStore
  | .convGauss5 => s.srcStore
  | .convEdge => s.srcStore
  | .convEmboss => s.srcStore
  | .convSharp => s.srcStore
  | .hist => s.srcStore
  | .eqmap => noRegion
  | .remap => s.srcStore
  | .equalize => s.srcStore
  | .rgb2yuv => s.srcRgb
  | .yuv2rgb => s.srcYuv

/-- The host keeps the ownership hazard for the command (70_reset_and_hazards.md R270 a, b): since acceptance it has
written no byte of the command's source or written region. -/
def hostKeepsOwnership (i : Instr) (s : State) : Prop :=
  ∀ c ∈ s.touched, (sourceRegion i s).contains c.1 = false ∧ (writtenRegion i s).contains c.1 = false

/-- The command's check phase passes (44_system.md R221). -/
def checksPass (i : Instr) (s : State) : Prop := ∀ c ∈ checksOf i s, c.fails = false

/-- The state in which a command that performed has completed: memory, tables and STATUS are new, everything else is
the state at acceptance (44_system.md R222). -/
def performed (s : State) (m : Memory) (h : HistTable) (p : MapTable) (fallback : Bool) : State :=
  { s with
    mem := m
    hist := h
    map := p
    status := { s.status with busy := false, done := true, degen := s.status.degen || fallback } }

/-- A command's new memory m: every byte outside its written region is as it was at acceptance. -/
def unchangedOutside (r : Region) (s : State) (m : Memory) : Prop :=
  ∀ a, r.contains a = false → m.read a = s.mem.read a

/-- The state in which a command has failed with code e (60_exceptions.md R238). -/
def failedWith (s : State) (e : ErrCode) : State :=
  { s with errcode := e, status := { s.status with busy := false, done := true, err := true } }

/-- The command i is a convolution of size n with numerators `coeff` and divisor `d` (41_convolution.md R142 to R145):
for every state that is ready, with a legal depth, an image at least n by n, regions in range and apart, and a host that
keeps the hazard rule, it completes; channel c of pixel (x, y) of the store at DST is the clamped, truncated quotient of
the exact sum over the neighbours of the store at SRC; no other byte, register or table changes. -/
def ConvolvesAs (i : Instr) (n : Nat) (ready : State → Prop) (coeff : State → Nat → Nat → Int) (d : State → Int) :
    Prop :=
  ∀ s : State, s.mem.wf = true → ready s → s.depthOk = true → n ≤ s.w → n ≤ s.h →
    s.inRange s.srcStore = true → s.inRange s.dstStore = true → s.srcStore.overlaps s.dstStore = false →
    hostKeepsOwnership i s →
    ∃ m, exec i s = .next (performed s m s.hist s.map false) ∧ unchangedOutside s.dstStore s m ∧
      ∀ x y c, x < s.w → y < s.h → c < s.bppb →
        ((m.read (s.pixelAddr s.dstAddr x y c)).toNat : Int) =
          clamp (tdiv (∑ a ∈ Finset.range n, ∑ b ∈ Finset.range n,
            coeff s a b * s.neighbour ((x : Int) + b - (n / 2 : Nat)) ((y : Int) + a - (n / 2 : Nat)) c) (d s)) 0 255

end Sys2Proof.Machine
end

