-- ==== Sys2Proof/Certificates/Slice0/Obligations.lean ====
section
/-! DEFINITION. The statements about the IPE, one `Obligations.<Name>` each, from the numbered rules of spec/. They are
about every state; where a statement needs the memory's canonical form, that is the invariant which
`Obligations.StepKeepsTheInvariant` states. -/

open Sys2Proof Sys2Proof.Machine

/-! ### The command word (30_encoding.md) -/

/-- 30_encoding.md R90 to R93: decoding the word of any well-formed command gives the command back, with every value of
the field n. -/
def Obligations.DecodeOfEncodeIsTheCommand : Prop :=
  ∀ i : Instr, i.wellFormed = true → decode (encode i) = .ok i

/-- 30_encoding.md R90 to R93: a word that decodes is the word of the command it decodes to, which is well formed; no
bit of a legal word is dropped. -/
def Obligations.EncodeOfDecodeIsTheWord : Prop :=
  ∀ (w : Word) (i : Instr), decode w = .ok i → encode i = w ∧ i.wellFormed = true

/-- 30_encoding.md R92: a word selects a command exactly when `w AND mask = match` for the command's row of the opcode
map, and then it is that row's command; of the sixteen rows at most one selects a word. -/
def Obligations.DecoderSelectsByMaskAndMatch : Prop :=
  (∀ (w : Word) (i : Instr), decode w = .ok i ↔ ∃ r ∈ opcodeMap, r.selects w = true ∧ r.reads w = i) ∧
  (∀ w : Word, (opcodeMap.filter (fun r => r.selects w)).length ≤ 1)

/-- 30_encoding.md R93: the decoding procedure, on every word. -/
def Obligations.DecodingProcedure : Prop :=
  ∀ w : Word,
    let op := w.extractLsb' 0 8
    (op = 0x10#8 → w.extractLsb' 12 20 ≠ 0#20 → ∃ e, decode w = .error e) ∧
    (op = 0x10#8 → w.extractLsb' 12 20 = 0#20 → decode w = .ok (.convK (w.extractLsb' 8 4).toNat)) ∧
    (∀ row ∈ ([(0x00#8, .nop), (0x01#8, .scanIn), (0x02#8, .scanOut), (0x11#8, .convBox3), (0x12#8, .convGauss3),
        (0x13#8, .convGauss5), (0x14#8, .convEdge), (0x15#8, .convEmboss), (0x16#8, .convSharp), (0x20#8, .hist),
        (0x21#8, .eqmap), (0x22#8, .remap), (0x23#8, .equalize), (0x30#8, .rgb2yuv), (0x31#8, .yuv2rgb)] :
        List (BitVec 8 × Instr)),
      op = row.1 → (w.extractLsb' 8 24 ≠ 0#24 → ∃ e, decode w = .error e) ∧
        (w.extractLsb' 8 24 = 0#24 → decode w = .ok row.2)) ∧
    (op ∉ [0x00#8, 0x01#8, 0x02#8, 0x10#8, 0x11#8, 0x12#8, 0x13#8, 0x14#8, 0x15#8, 0x16#8, 0x20#8, 0x21#8, 0x22#8,
        0x23#8, 0x30#8, 0x31#8] → ∃ e, decode w = .error e)

/-- 30_encoding.md R92: one word of each family, written out from the opcode map, decodes to its command. -/
def Obligations.SampleWordsDecode : Prop :=
  decode 0x00000000#32 = .ok .nop ∧ decode 0x00000001#32 = .ok .scanIn ∧
  decode 0x00000310#32 = .ok (.convK 3) ∧ decode 0x00000410#32 = .ok (.convK 4) ∧
  decode 0x00000016#32 = .ok .convSharp ∧ decode 0x00000023#32 = .ok .equalize ∧
  decode 0x00000031#32 = .ok .yuv2rgb

/-! ### A step -/

/-- 44_system.md R221 to R223: with a command in flight whose word decodes to a well-formed command, the engine's turn
is that command's meaning. It comes when it is next among the pending inputs, and when nothing is pending. A word that
`withFetchWord` places is run by the very next step, on the state its acceptance leaves (R220). (That the engine's turn is
an input and a step is the model's form, log entries 1, 2 and 14.) -/
def Obligations.StepRunsTheDecodedCommand : Prop :=
  (∀ (s : State) (i : Instr), s.status.busy = true → decode s.cmd = .ok i → i.wellFormed = true →
    (s.inputs = [] → step s = exec i s) ∧
    (∀ rest, s.inputs = .engine :: rest → step s = exec i { s with inputs := rest })) ∧
  (∀ (s : State) (w : Word) (i : Instr), decode w = .ok i →
    step (s.withFetchWord 32 w.toNat) = exec i (s.accept w))

/-- 30_encoding.md R96, 60_exceptions.md R231: a command in flight whose word is illegal fails with `E_CMD`, and nothing
but STATUS and ERRCODE changes: in the engine's turn, when it is next among the pending inputs, and when nothing is
pending. -/
def Obligations.IllegalWordFailsWithECmd : Prop :=
  ∀ (s : State) (e : DecodeError), s.status.busy = true → decode s.cmd = .error e →
    (s.inputs = [] → step s = .next (failedWith s .eCmd)) ∧
    (∀ rest, s.inputs = .engine :: rest → step s = .next (failedWith { s with inputs := rest } .eCmd))

/-- 70_reset_and_hazards.md R272, 60_exceptions.md R249: every accepted command completes, whatever its word and its
operands, no command faults and none is refused; an idle engine changes nothing. Both in the engine's turn, when it is
next among the pending inputs, and when nothing is pending. -/
def Obligations.EngineTurnAlwaysCompletes : Prop :=
  ∀ (s : State) (rest : List Input), (s.inputs = [] ∧ rest = []) ∨ s.inputs = .engine :: rest →
    (s.status.busy = true →
      ∃ t, step s = .next t ∧ t.status.busy = false ∧ t.status.done = true ∧
        t.cmd = s.cmd ∧ t.inputs = rest) ∧
    (s.status.busy = false → step s = .next { s with inputs := rest })

/-- 44_system.md R223: the atomic view of a command: a CMD write while BUSY = 0 and then the engine's turn give the
state at acceptance run through the command. -/
def Obligations.AcceptThenTurnIsTheCommand : Prop :=
  ∀ (s : State) (w : Word) (i : Instr) (rest : List Input), s.status.busy = false → decode w = .ok i →
    s.inputs = .regWrite 4#10 w :: .engine :: rest →
    ∃ t, step s = .next t ∧ step t = exec i ({ s with inputs := rest }.accept w)

/-! ### Invariants -/

/-- 10_state.md R23, 20_memory.md R60, 00_scope.md R5: every step (a command, an action of the host, a reset, with the
hazard rule kept or broken) keeps the invariant: canonical memory inside the address space; BUSY = 1 only with DONE,
ERR, DEGEN and ERRCODE clear; ERR = 1 only with an error code; DEGEN = 1 only with none; and the implementation's
parameters never change. -/
def Obligations.StepKeepsTheInvariant : Prop :=
  ∀ s t : State, s.Inv → step s = .next t → t.Inv ∧ t.params = s.params

/-- 10_state.md R42: the state after reset meets the invariant. -/
def Obligations.ResetMeetsTheInvariant : Prop := State.reset.Inv

/-- 10_state.md R42: the registers State.reset holds, at the values the spec gives. (HIST, MAP, the memory and
`MEM_BYTES`, which the spec leaves open, are not stated: log entries 3, 5 and 6.) -/
def Obligations.ResetRegisters : Prop :=
  let s := State.reset
  (∀ r : Reg, r.isTable = false →
    s.regValue r = if r = .id then 0x49504501#32 else if r = .kdiv then 1#32 else 0#32) ∧
  s.irq = false

/-! ### Scanline unit (40_scanline.md) -/

/-- 40_scanline.md R120: SCAN.IN on every legal state: byte k of pixel x of on-disk row r (blue, green, red of a 24-bit
pixel) becomes its channel of pixel (x, yrow r) of the store at DST, row r being row r of the image if top-down and row
H − 1 − r if bottom-up; no byte outside the store changes, and no register but STATUS. -/
def Obligations.ScanInStoresTheImage : Prop :=
  ∀ s : State, s.mem.wf = true → s.depthOk = true → s.diskBytes ≤ s.len.toNat →
    s.inRange s.srcDisk = true → s.inRange s.dstStore = true → s.srcDisk.overlaps s.dstStore = false →
    hostKeepsOwnership .scanIn s →
    ∃ m, exec .scanIn s = .next (performed s m s.hist s.map false) ∧ unchangedOutside s.dstStore s m ∧
      ∀ r x k, r < s.h → x < s.w → k < s.bppb →
        m.read (s.pixelAddr s.dstAddr x (if s.td then r else s.h - 1 - r) (s.bppb - 1 - k)) =
          s.mem.read (s.diskAddr s.srcAddr x r k)

/-- 40_scanline.md R121: SCAN.OUT on every legal state: the pixel bytes as SCAN.IN has them, the other way; every
padding byte 0; no byte outside the array changes, and no register but STATUS. -/
def Obligations.ScanOutWritesTheArray : Prop :=
  ∀ s : State, s.mem.wf = true → s.depthOk = true →
    s.inRange s.srcStore = true → s.inRange s.dstDisk = true → s.srcStore.overlaps s.dstDisk = false →
    hostKeepsOwnership .scanOut s →
    ∃ m, exec .scanOut s = .next (performed s m s.hist s.map false) ∧ unchangedOutside s.dstDisk s m ∧
      (∀ r x k, r < s.h → x < s.w → k < s.bppb →
        m.read (s.diskAddr s.dstAddr x r k) =
          s.mem.read (s.pixelAddr s.srcAddr x (if s.td then r else s.h - 1 - r) (s.bppb - 1 - k))) ∧
      (∀ r p, r < s.h → p < s.padb → m.read (s.padAddr s.dstAddr r p) = 0#8)

/-- 40_scanline.md R122 (a): SCAN.OUT from a store to an array and then SCAN.IN from that array to a second store, with
WIDTH, HEIGHT and FMT unchanged, both with success, gives the first store byte for byte, for either orientation and
depth. -/
def Obligations.ScanOutThenScanInReturnsTheStore : Prop :=
  ∀ (s t u : State) (dst2 len2 : Word), s.mem.wf = true → checksPass .scanOut s → hostKeepsOwnership .scanOut s →
    exec .scanOut s = .next t →
    checksPass .scanIn { t with src := s.dst, dst := dst2, len := len2 } →
    hostKeepsOwnership .scanIn { t with src := s.dst, dst := dst2, len := len2 } →
    exec .scanIn { t with src := s.dst, dst := dst2, len := len2 } = .next u →
    ∀ j, j < s.storeBytes → u.mem.read (dst2.toNat + j) = s.mem.read (s.srcAddr + j)

/-- 40_scanline.md R122 (b): SCAN.IN from an array to a store and then SCAN.OUT from that store to a second array gives
the first array in every pixel byte, and in every byte exactly when every padding byte of the first array was 0. -/
def Obligations.ScanInThenScanOutReturnsTheArray : Prop :=
  ∀ (s t u : State) (dst2 : Word), s.mem.wf = true → checksPass .scanIn s → hostKeepsOwnership .scanIn s →
    exec .scanIn s = .next t →
    checksPass .scanOut { t with src := s.dst, dst := dst2 } →
    hostKeepsOwnership .scanOut { t with src := s.dst, dst := dst2 } →
    exec .scanOut { t with src := s.dst, dst := dst2 } = .next u →
    (∀ r x k, r < s.h → x < s.w → k < s.bppb →
      u.mem.read (s.diskAddr dst2.toNat x r k) = s.mem.read (s.diskAddr s.srcAddr x r k)) ∧
    ((∀ j, j < s.diskBytes → u.mem.read (dst2.toNat + j) = s.mem.read (s.srcAddr + j)) ↔
      ∀ r p, r < s.h → p < s.padb → s.mem.read (s.padAddr s.srcAddr r p) = 0#8)

/-- 40_scanline.md R123: STRIDE is a multiple of 4, PADB at most 3 and given by the width, with the largest sizes; a
size in bytes needs up to 34 bits. -/
def Obligations.PaddingArithmetic : Prop :=
  ∀ s : State, s.depthOk = true →
    s.stride % 4 = 0 ∧ s.padb ≤ 3 ∧ (s.bpp = 8#6 → s.padb = (4 - s.w % 4) % 4) ∧
    (s.bpp = 24#6 → s.rowb = 3 * s.w ∧ 3 * s.w % 4 = (4 - s.w % 4) % 4 ∧ s.padb = s.w % 4) ∧
    s.rowb ≤ 196605 ∧ s.stride ≤ 196608 ∧ s.diskBytes ≤ 65535 * 196608 ∧ s.diskBytes < 2 ^ 34

/-! ### Convolution engine (41_convolution.md) -/

/-- 41_convolution.md R147: CONV.K n, n = 3 or 5, with a non-zero divisor, convolves with KN[0 .. n×n−1] read with
stride n over KDIV. -/
def Obligations.ConvKUsesTheUserKernel : Prop :=
  ∀ n : Nat, n = 3 ∨ n = 5 →
    ConvolvesAs (.convK n) n (fun s => s.kdiv ≠ 0#16) (fun s a b => (s.kn.toList.getD (a * n + b) 0#16).toInt)
      (fun s => s.kdiv.toNat)

/-- 41_convolution.md R151: CONV.BOX3. -/
def Obligations.ConvBox3IsTheBoxBlur : Prop :=
  ConvolvesAs .convBox3 3 (fun _ => True) (fun _ _ _ => 1) (fun _ => 9)

/-- 41_convolution.md R152: CONV.GAUSS3, numerators [1,2,1] ⊗ [1,2,1] over 16. -/
def Obligations.ConvGauss3IsTheGaussianBlur : Prop :=
  ConvolvesAs .convGauss3 3 (fun _ => True) (fun _ a b => [1, 2, 1].getD a 0 * [1, 2, 1].getD b 0) (fun _ => 16)

/-- 41_convolution.md R153: CONV.GAUSS5, numerators b[i] × b[j], b = [1,4,6,4,1], over 256. -/
def Obligations.ConvGauss5IsTheBinomialBlur : Prop :=
  ConvolvesAs .convGauss5 5 (fun _ => True)
    (fun _ a b => [1, 4, 6, 4, 1].getD a 0 * [1, 4, 6, 4, 1].getD b 0) (fun _ => 256)

/-- 41_convolution.md R154: CONV.EDGE, centre 8, all eight neighbours −1. -/
def Obligations.ConvEdgeIsTheLaplacian : Prop :=
  ConvolvesAs .convEdge 3 (fun _ => True) (fun _ a b => if a = 1 ∧ b = 1 then 8 else -1) (fun _ => 1)

/-- 41_convolution.md R155: CONV.EMBOSS uses the implementation's parameters, whatever they are (log
entry 4). -/
def Obligations.ConvEmbossUsesTheParameterKernel : Prop :=
  ConvolvesAs .convEmboss 3 (fun _ => True)
    (fun s a b => (s.params.embossKn.toList.getD (a * 3 + b) 0#16).toInt) (fun s => s.params.embossKdiv.toNat)

/-- 41_convolution.md R156: CONV.SHARP, centre 5, the four edge neighbours −1, the corners 0. -/
def Obligations.ConvSharpIsTheSharpenKernel : Prop :=
  ConvolvesAs .convSharp 3 (fun _ => True)
    (fun _ a b => if a = 1 ∧ b = 1 then 5 else if a = 1 ∨ b = 1 then -1 else 0) (fun _ => 1)

/-- 41_convolution.md R141, R142: a neighbour inside the image is its sample; outside it, each coordinate is clamped by
itself to the nearest edge. -/
def Obligations.NeighbourClampsToTheEdge : Prop :=
  ∀ (s : State) (cx cy : Int) (c : Nat), 1 ≤ s.w → 1 ≤ s.h →
    (∀ x y : Nat, x < s.w → y < s.h →
      s.neighbour x y c = (s.mem.read (s.pixelAddr s.srcAddr x y c)).toNat) ∧
    (cx < 0 → s.neighbour cx cy c = s.neighbour 0 cy c) ∧
    ((s.w : Int) - 1 < cx → s.neighbour cx cy c = s.neighbour (s.w - 1) cy c) ∧
    (cy < 0 → s.neighbour cx cy c = s.neighbour cx 0 c) ∧
    ((s.h : Int) - 1 < cy → s.neighbour cx cy c = s.neighbour cx (s.h - 1) c)

/-- 41_convolution.md R148: with any user kernel of size 3 or 5 the sum fits a signed 32-bit accumulator. -/
def Obligations.ConvSumFitsThirtyTwoBits : Prop :=
  ∀ (s : State) (n x y c : Nat), n = 3 ∨ n = 5 → |s.convSum (s.userKernel n) x y c| ≤ 208896000

/-- 41_convolution.md R149 (a): CONV.K with a 1 at the centre, 0 elsewhere and divisor 1 copies the store, borders
included. -/
def Obligations.IdentityKernelCopiesTheStore : Prop :=
  ∀ (s t : State) (n : Nat), n = 3 ∨ n = 5 → s.mem.wf = true → checksPass (.convK n) s →
    hostKeepsOwnership (.convK n) s → s.kdiv = 1#16 →
    (∀ k, k < n * n → s.kn.toList.getD k 0#16 = if k = n * n / 2 then 1#16 else 0#16) →
    exec (.convK n) s = .next t →
    ∀ j, j < s.storeBytes → t.mem.read (s.dstAddr + j) = s.mem.read (s.srcAddr + j)

/-- 41_convolution.md R149 (b): on an image constant in one channel every output of that channel is
clamp(tdiv(T×v, D)), T the sum of the numerators. -/
def Obligations.ConstantImageStaysConstant : Prop :=
  ∀ (s : State) (k : Kernel) (x y c : Nat) (v : Byte), 1 ≤ s.w → 1 ≤ s.h →
    (∀ x' y', x' < s.w → y' < s.h → s.mem.read (s.pixelAddr s.srcAddr x' y' c) = v) →
    ((s.convByte k x y c).toNat : Int) =
      clamp (tdiv ((∑ a ∈ Finset.range k.size, ∑ b ∈ Finset.range k.size, k.coeff a b) * v.toNat) k.div) 0 255

/-- 41_convolution.md R149 (c): scaling numerators and divisor by the same positive factor changes no result. -/
def Obligations.ScalingTheKernelChangesNothing : Prop :=
  ∀ (s : State) (k : Kernel) (f x y c : Nat), 0 < f → 0 < k.div →
    s.convByte ⟨k.size, k.num.map (fun v => f * v), f * k.div⟩ x y c = s.convByte k x y c

/-! ### Histogram accumulator and CDF remapper (42_histogram_eq.md) -/

/-- 42_histogram_eq.md R171, R172: HIST on every legal state: bin v counts the pixels whose sample is v, the stored byte
of an 8-bit pixel, the luminance index of a 24-bit one; memory, MAP and every register but STATUS are unchanged. -/
def Obligations.HistCountsTheSamples : Prop :=
  ∀ s : State, s.depthOk = true → s.inRange s.srcStore = true → hostKeepsOwnership .hist s →
    ∃ h, exec .hist s = .next (performed s s.mem h s.map false) ∧
      ∀ v (hv : v < 256),
        (s.bpp = 8#6 → (h[v]).toNat =
          ((Finset.range s.npix).filter (fun p => (s.mem.read (s.srcAddr + p)).toNat = v)).card) ∧
        (s.bpp = 24#6 → (h[v]).toNat =
          ((Finset.range s.npix).filter (fun p =>
            clamp (rdiv (29900 * ((s.mem.read (s.srcAddr + 3 * p)).toNat : Int) +
              58700 * ((s.mem.read (s.srcAddr + 3 * p + 1)).toNat : Int) +
              11400 * ((s.mem.read (s.srcAddr + 3 * p + 2)).toNat : Int)) 100000) 0 255 = v)).card)

/-- 42_histogram_eq.md R180 (a): after HIST the bins sum to NPIX. -/
def Obligations.HistBinsSumToThePixels : Prop :=
  ∀ s t : State, checksPass .hist s → hostKeepsOwnership .hist s → exec .hist s = .next t →
    (t.hist.toList.map BitVec.toNat).sum = s.npix

/-- 42_histogram_eq.md R173 to R176: EQMAP on every state. With no sample or one occupied bin: the identity and DEGEN.
Otherwise, m being the lowest occupied bin: entry i is 0 below m and else
rdiv((cdf[i] − cdf_min) × 255, N − cdf_min), DEGEN not set. Nothing but MAP and STATUS changes. -/
def Obligations.EqmapComputesTheRemapTable : Prop :=
  ∀ s : State,
    let c := fun i : Nat => ∑ k ∈ Finset.range (i + 1), (s.hist.toList.getD k 0#32).toNat
    ((c 255 = 0 ∨ ∃ m, m < 256 ∧ c m = c 255 ∧ ∀ k, k < m → c k = 0) →
      exec .eqmap s = .next (performed s s.mem s.hist (tabulate 256 (BitVec.ofNat 8)) true)) ∧
    (∀ m, m < 256 → 0 < c m → c m ≠ c 255 → (∀ k, k < m → c k = 0) →
      ∃ p, exec .eqmap s = .next (performed s s.mem s.hist p false) ∧
        ∀ i (hi : i < 256), ((p[i]).toNat : Int) =
          if i < m then 0 else rdiv (((c i : Int) - c m) * 255) ((c 255 : Int) - c m))

/-- 42_histogram_eq.md R180 (b) and R174 (c), (f): after EQMAP the table does not decrease; unless DEGEN was raised, it is
0 up to the lowest occupied level, that level included, and 255 from the highest occupied level on. -/
def Obligations.RemapTableIsMonotone : Prop :=
  ∀ s t : State, s.status.degen = false → exec .eqmap s = .next t →
    (∀ i j (hi : i < 256) (hj : j < 256), i ≤ j → (t.map[i]).toNat ≤ (t.map[j]).toNat) ∧
    (t.status.degen = false → ∀ i (hi : i < 256),
      ((∀ k, k < i → s.hist.toList.getD k 0#32 = 0#32) → t.map[i] = 0#8) ∧
      ((∀ k, i < k → s.hist.toList.getD k 0#32 = 0#32) → t.map[i] = 255#8))

/-- 42_histogram_eq.md R177: REMAP of an 8-bit store: each byte becomes its table entry, in place. -/
def Obligations.RemapLooksUpEachGrayPixel : Prop :=
  ∀ s : State, s.mem.wf = true → s.bpp = 8#6 → s.inRange s.srcStore = true → hostKeepsOwnership .remap s →
    ∃ m, exec .remap s = .next (performed s m s.hist s.map false) ∧ unchangedOutside s.srcStore s m ∧
      ∀ p, p < s.npix → m.read (s.srcAddr + p) = s.map[(s.mem.read (s.srcAddr + p)).toNat]'(BitVec.isLt _)

/-- 42_histogram_eq.md R177: REMAP of a 24-bit store: each pixel's luminance becomes the table entry of its luminance
index, its chrominance stays, and the pixel is rebuilt by yuv2rgb, in place. -/
def Obligations.RemapReplacesTheLuminance : Prop :=
  ∀ s : State, s.mem.wf = true → s.bpp = 24#6 → s.inRange s.srcStore = true → hostKeepsOwnership .remap s →
    ∃ m, exec .remap s = .next (performed s m s.hist s.map false) ∧ unchangedOutside s.srcStore s m ∧
      ∀ p, p < s.npix →
        let v := rgb2yuv (s.mem.rgb s.srcAddr p)
        m.rgb s.srcAddr p =
          yuv2rgb ⟨100000 * ((s.map.toList.getD (clamp (rdiv v.y5 100000) 0 255).toNat 0#8).toNat : Int), v.u5, v.v5⟩

/-- 42_histogram_eq.md R178: EQ completes on every legal state, and leaves the memory, HIST and MAP that HIST, then
EQMAP, then REMAP leave on the same store, with the DEGEN of that EQMAP (the model's
reading, log entry 19). -/
def Obligations.EqIsHistThenEqmapThenRemap : Prop :=
  ∀ s : State, s.status.degen = false → s.depthOk = true → s.inRange s.srcStore = true →
    hostKeepsOwnership .equalize s →
    ∃ a b c, exec .hist s = .next a ∧ exec .eqmap a = .next b ∧ exec .remap b = .next c ∧
      exec .equalize s = .next (performed s c.mem a.hist b.map b.status.degen)

/-- 42_histogram_eq.md R180 (c): after a non-degenerate EQ of an 8-bit store the order of the pixels is kept weakly, the
darkest value has become 0 and the brightest 255. -/
def Obligations.EqKeepsOrderAndSpansTheRange : Prop :=
  ∀ s t : State, s.mem.wf = true → s.bpp = 8#6 → checksPass .equalize s → hostKeepsOwnership .equalize s →
    s.status.degen = false → exec .equalize s = .next t → t.status.degen = false →
    (∀ p q, p < s.npix → q < s.npix → (s.mem.read (s.srcAddr + p)).toNat ≤ (s.mem.read (s.srcAddr + q)).toNat →
      (t.mem.read (s.srcAddr + p)).toNat ≤ (t.mem.read (s.srcAddr + q)).toNat) ∧
    (∀ p, p < s.npix → (∀ q, q < s.npix → (s.mem.read (s.srcAddr + p)).toNat ≤ (s.mem.read (s.srcAddr + q)).toNat) →
      t.mem.read (s.srcAddr + p) = 0#8) ∧
    (∀ p, p < s.npix → (∀ q, q < s.npix → (s.mem.read (s.srcAddr + q)).toNat ≤ (s.mem.read (s.srcAddr + p)).toNat) →
      t.mem.read (s.srcAddr + p) = 255#8)

/-! ### Colour converter (43_colour.md) -/

/-- 43_colour.md R205: RGB2YUV on every legal state: the record of pixel p holds its exact Y5, U5, V5 as signed 32-bit
little-endian words; no byte outside the buffer changes, and no register but STATUS. -/
def Obligations.Rgb2yuvWritesTheRecords : Prop :=
  ∀ s : State, s.mem.wf = true → s.bpp = 24#6 → s.inRange s.srcRgb = true → s.inRange s.dstYuv = true →
    s.srcRgb.overlaps s.dstYuv = false → hostKeepsOwnership .rgb2yuv s →
    ∃ m, exec .rgb2yuv s = .next (performed s m s.hist s.map false) ∧ unchangedOutside s.dstYuv s m ∧
      ∀ p, p < s.npix →
        let r : Int := (s.mem.read (s.srcAddr + 3 * p + 0)).toNat
        let g : Int := (s.mem.read (s.srcAddr + 3 * p + 1)).toNat
        let b : Int := (s.mem.read (s.srcAddr + 3 * p + 2)).toNat
        (m.readWord (s.dstAddr + 12 * p + 0)).toInt = 29900 * r + 58700 * g + 11400 * b ∧
        (m.readWord (s.dstAddr + 12 * p + 4)).toInt = -14713 * r - 28886 * g + 43600 * b ∧
        (m.readWord (s.dstAddr + 12 * p + 8)).toInt = 61500 * r - 51499 * g - 10001 * b

/-- 43_colour.md R202, R206: YUV2RGB on every legal state, for every 32-bit pattern of the buffer. -/
def Obligations.Yuv2rgbWritesThePixels : Prop :=
  ∀ s : State, s.mem.wf = true → s.bpp = 24#6 → s.inRange s.srcYuv = true → s.inRange s.dstRgb = true →
    s.srcYuv.overlaps s.dstRgb = false → hostKeepsOwnership .yuv2rgb s →
    ∃ m, exec .yuv2rgb s = .next (performed s m s.hist s.map false) ∧ unchangedOutside s.dstRgb s m ∧
      ∀ p, p < s.npix →
        let y := (s.mem.readWord (s.srcAddr + 12 * p + 0)).toInt
        let u := (s.mem.readWord (s.srcAddr + 12 * p + 4)).toInt
        let v := (s.mem.readWord (s.srcAddr + 12 * p + 8)).toInt
        ((m.read (s.dstAddr + 3 * p + 0)).toNat : Int) = clamp (rdiv (100000 * y + 113983 * v) 10000000000) 0 255 ∧
        ((m.read (s.dstAddr + 3 * p + 1)).toNat : Int) =
          clamp (rdiv (100000 * y - 39465 * u - 58060 * v) 10000000000) 0 255 ∧
        ((m.read (s.dstAddr + 3 * p + 2)).toNat : Int) = clamp (rdiv (100000 * y + 203211 * u) 10000000000) 0 255

/-- 43_colour.md R204 (a) and R206: RGB2YUV from a store to a buffer and then YUV2RGB from that buffer to a second
store gives the first store byte for byte. -/
def Obligations.ColourRoundTripReturnsTheStore : Prop :=
  ∀ (s t u : State) (dst2 : Word), s.mem.wf = true → checksPass .rgb2yuv s → hostKeepsOwnership .rgb2yuv s →
    exec .rgb2yuv s = .next t →
    checksPass .yuv2rgb { t with src := s.dst, dst := dst2 } →
    hostKeepsOwnership .yuv2rgb { t with src := s.dst, dst := dst2 } →
    exec .yuv2rgb { t with src := s.dst, dst := dst2 } = .next u →
    ∀ j, j < s.npix * 3 → u.mem.read (dst2.toNat + j) = s.mem.read (s.srcAddr + j)

/-- 43_colour.md R204 (b), (c): a gray pixel indexes the table at its own value; the index does not decrease in Y5. -/
def Obligations.LuminanceIndexIsMonotone : Prop :=
  (∀ v : Byte, yidx (rgb2yuv ⟨v, v, v⟩).y5 = v.toNat) ∧ ∀ a b : Int, a ≤ b → yidx a ≤ yidx b

/-! ### Errors (60_exceptions.md) -/

/-- 60_exceptions.md R237: SCAN.IN and SCAN.OUT report the first failing check, in the fixed order. -/
def Obligations.ScanlineErrorPriority : Prop :=
  ∀ s : State,
    exec .scanIn s = (
      if ¬ s.depthOk = true then .next (failedWith s .eDepth)
      else if s.len.toNat < s.diskBytes then .next (failedWith s .eTrunc)
      else if ¬ (s.inRange s.srcDisk = true ∧ s.inRange s.dstStore = true) then .next (failedWith s .eAddr)
      else if s.srcDisk.overlaps s.dstStore = true then .next (failedWith s .eAlias)
      else .next (s.perform (effectOf .scanIn s))) ∧
    exec .scanOut s = (
      if ¬ s.depthOk = true then .next (failedWith s .eDepth)
      else if ¬ (s.inRange s.srcStore = true ∧ s.inRange s.dstDisk = true) then .next (failedWith s .eAddr)
      else if s.srcStore.overlaps s.dstDisk = true then .next (failedWith s .eAlias)
      else .next (s.perform (effectOf .scanOut s)))

/-- 60_exceptions.md R233, R237 and 41_convolution.md R146: CONV.K n and the presets report the first failing check. -/
def Obligations.ConvolutionErrorPriority : Prop :=
  ∀ s : State,
    (∀ n : Nat, exec (.convK n) s = (
      if ¬ s.depthOk = true then .next (failedWith s .eDepth)
      else if (n ≠ 3 ∧ n ≠ 5) ∨ s.kdiv = 0#16 ∨ s.w < n ∨ s.h < n then .next (failedWith s .eKernel)
      else if ¬ (s.inRange s.srcStore = true ∧ s.inRange s.dstStore = true) then .next (failedWith s .eAddr)
      else if s.srcStore.overlaps s.dstStore = true then .next (failedWith s .eAlias)
      else .next (s.perform (effectOf (.convK n) s)))) ∧
    (∀ i n, (i, n) ∈ ([(.convBox3, 3), (.convGauss3, 3), (.convGauss5, 5), (.convEdge, 3), (.convEmboss, 3),
        (.convSharp, 3)] : List (Instr × Nat)) →
      exec i s = (
        if ¬ s.depthOk = true then .next (failedWith s .eDepth)
        else if s.w < n ∨ s.h < n then .next (failedWith s .eKernel)
        else if ¬ (s.inRange s.srcStore = true ∧ s.inRange s.dstStore = true) then .next (failedWith s .eAddr)
        else if s.srcStore.overlaps s.dstStore = true then .next (failedWith s .eAlias)
        else .next (s.perform (effectOf i s))))

/-- 60_exceptions.md R232, R235 to R237: HIST, REMAP and EQ, and the colour commands, report the first failing check. -/
def Obligations.HistogramAndColourErrorPriority : Prop :=
  ∀ s : State,
    (∀ i ∈ ([.hist, .remap, .equalize] : List Instr), exec i s = (
      if ¬ s.depthOk = true then .next (failedWith s .eDepth)
      else if ¬ s.inRange s.srcStore = true then .next (failedWith s .eAddr)
      else .next (s.perform (effectOf i s)))) ∧
    exec .rgb2yuv s = (
      if s.bpp ≠ 24#6 then .next (failedWith s .eDepth)
      else if ¬ (s.inRange s.srcRgb = true ∧ s.inRange s.dstYuv = true) then .next (failedWith s .eAddr)
      else if s.srcRgb.overlaps s.dstYuv = true then .next (failedWith s .eAlias)
      else .next (s.perform (effectOf .rgb2yuv s))) ∧
    exec .yuv2rgb s = (
      if s.bpp ≠ 24#6 then .next (failedWith s .eDepth)
      else if ¬ (s.inRange s.srcYuv = true ∧ s.inRange s.dstRgb = true) then .next (failedWith s .eAddr)
      else if s.srcYuv.overlaps s.dstRgb = true then .next (failedWith s .eAlias)
      else .next (s.perform (effectOf .yuv2rgb s)))

/-- 20_memory.md R72, R73: what in range and overlap mean; nothing wraps, and an empty region is in range and overlaps
nothing. -/
def Obligations.RangeAndOverlapChecks : Prop :=
  (∀ (s : State) (r : Region), s.inRange r = true ↔ r.len = 0 ∨ r.base + r.len ≤ s.params.memBytes) ∧
  (∀ a b : Region, a.overlaps b = true ↔ ∃ x, a.contains x = true ∧ b.contains x = true)

/-- 44_system.md R222, 60_exceptions.md R238, R242: a command that ends with an error code has changed nothing but
STATUS and ERRCODE: no operand register, no kernel register, no table entry, no memory byte. -/
def Obligations.FailedCommandIsAtomic : Prop :=
  ∀ (i : Instr) (s t : State), s.status.err = false → exec i s = .next t → t.status.err = true →
    t.errcode ≠ .noError ∧ t = failedWith s t.errcode

/-! ### Frames (10_state.md R43) -/

/-- 10_state.md R43: no command writes an operand register, the kernel file, CTRL, CMD, BWERR or a parameter, whether
it succeeds or fails and whatever the host does meanwhile. -/
def Obligations.CommandsKeepTheOperands : Prop :=
  ∀ (i : Instr) (s t : State), exec i s = .next t →
    t.src = s.src ∧ t.dst = s.dst ∧ t.width = s.width ∧ t.height = s.height ∧ t.bpp = s.bpp ∧ t.td = s.td ∧
    t.len = s.len ∧ t.kdiv = s.kdiv ∧ t.kn = s.kn ∧ t.ie = s.ie ∧ t.cmd = s.cmd ∧
    t.status.bwerr = s.status.bwerr ∧ t.params = s.params

/-- 10_state.md R43, R39 and 70_reset_and_hazards.md R270: a command changes memory inside its written region only,
HIST only if it is HIST or EQ, MAP only if it is EQMAP or EQ, even when the host breaks the ownership hazard; and
STATUS and ERRCODE end as they do of a host that kept out, on the source as it was at acceptance (log entry 8). -/
def Obligations.CommandsWriteOnlyWhatTheyOwn : Prop :=
  ∀ (i : Instr) (s t : State), s.mem.wf = true → exec i s = .next t →
    (∀ a, (writtenRegion i s).contains a = false → t.mem.read a = s.mem.read a) ∧
    (i ≠ .hist → i ≠ .equalize → t.hist = s.hist) ∧ (i ≠ .eqmap → i ≠ .equalize → t.map = s.map) ∧
    ∀ u, exec i { s with touched := [], mem := s.memAtAcceptance (sourceRegion i s) } = .next u →
      t.status = u.status ∧ t.errcode = u.errcode

/-- 44_system.md R229: NOP completes on every state and does nothing but its life cycle: at acceptance DONE, ERR, DEGEN
and ERRCODE fall and BUSY rises, at completion DONE rises and BUSY falls; its word is 0, and no other word with opcode
0 is a command. -/
def Obligations.NopOnlyCompletes : Prop :=
  (∀ s : State, exec .nop s = .next { s with status := { s.status with busy := false, done := true } }) ∧
  decode 0x00000000#32 = .ok .nop ∧
  (∀ w : Word, w.extractLsb' 0 8 = 0x00#8 → w ≠ 0x00000000#32 → ∃ e, decode w = .error e) ∧
  (∀ (s : State) (rest : List Input), s.status.busy = false → s.inputs = .regWrite 4#10 0x00000000#32 :: .engine :: rest →
    ∃ t, step s = .next t ∧
      t = { s with
        cmd := 0x00000000#32
        errcode := .noError
        status := ⟨true, false, false, false, s.status.bwerr⟩
        touched := []
        inputs := .engine :: rest } ∧
      step t = .next { t with status := ⟨false, true, false, false, s.status.bwerr⟩, inputs := rest })

/-! ### The host's side (44_system.md, 10_state.md, 20_memory.md, 70_reset_and_hazards.md) -/

/-- 44_system.md R220: a CMD write while BUSY = 0 accepts any word: CMD holds it, DONE, ERR, DEGEN and ERRCODE are
cleared, BUSY rises; BWERR and CTRL and every operand, table and byte stay; irq is low. -/
def Obligations.CmdWriteAcceptsTheWord : Prop :=
  ∀ (s : State) (w : Word) (rest : List Input), s.status.busy = false → s.inputs = .regWrite 4#10 w :: rest →
    ∃ t, step s = .next t ∧
      t = { s with
        cmd := w
        errcode := .noError
        status := ⟨true, false, false, false, s.status.bwerr⟩
        touched := []
        inputs := rest } ∧
      t.irq = false

/-- 10_state.md R40, 20_memory.md R62: the register map by byte offset, and that a transfer at an offset writes the
register which is there, before anything else happens. -/
def Obligations.RegisterMapByOffset : Prop :=
  (∀ (s : State) (index : BitVec 10) (v : Word) (rest : List Input), s.inputs = .regWrite index v :: rest →
    step s = .next ({ s with inputs := rest }.regWrite (regAt index) v)) ∧
  ∀ index : BitVec 10,
    let off := 4 * index.toNat
    (∀ row ∈ [(0x000, Reg.id), (0x004, .ctrl), (0x008, .status), (0x00C, .errcode), (0x010, .cmd), (0x014, .src),
        (0x018, .dst), (0x01C, .width), (0x020, .height), (0x024, .fmt), (0x028, .len), (0x02C, .kdiv)],
      off = row.1 → regAt index = row.2) ∧
    (∀ k : Fin 25, off = 0x040 + 4 * k → regAt index = .kn k) ∧
    (∀ k : Fin 256, off = 0x400 + 4 * k → regAt index = .hist k) ∧
    (∀ k : Fin 256, off = 0x800 + 4 * k → regAt index = .map k) ∧
    ((0x030 ≤ off ∧ off ≤ 0x03C) ∨ (0x0A4 ≤ off ∧ off ≤ 0x3FC) ∨ (0xC00 ≤ off ∧ off ≤ 0xFFC) →
      regAt index = .reserved)

/-- 44_system.md R227 and 10_state.md R41: register writes while BUSY = 0, the CMD write apart: what each register holds
afterwards; the read-only registers and the reserved offsets ignore them. -/
def Obligations.IdleRegisterWrites : Prop :=
  ∀ (s : State) (v : Word), s.status.busy = false →
    (∀ r ∈ [Reg.id, .errcode, .reserved], s.regWrite r v = s) ∧
    s.regWrite .ctrl v = { s with ie := v.getLsbD 0 } ∧
    s.regWrite .status v = { s with status := { s.status with
      done := s.status.done && !v.getLsbD 1, err := s.status.err && !v.getLsbD 2,
      degen := s.status.degen && !v.getLsbD 3, bwerr := s.status.bwerr && !v.getLsbD 4 } } ∧
    s.regWrite .src v = { s with src := v } ∧ s.regWrite .dst v = { s with dst := v } ∧
    s.regWrite .len v = { s with len := v } ∧
    s.regWrite .width v = { s with width := v.extractLsb' 0 16 } ∧
    s.regWrite .height v = { s with height := v.extractLsb' 0 16 } ∧
    s.regWrite .fmt v = { s with bpp := v.extractLsb' 0 6, td := v.getLsbD 8 } ∧
    s.regWrite .kdiv v = { s with kdiv := v.extractLsb' 0 16 } ∧
    (∀ k : Fin 25, s.regWrite (.kn k) v = { s with kn := s.kn.set k (v.extractLsb' 0 16) }) ∧
    (∀ k : Fin 256, s.regWrite (.hist k) v = { s with hist := s.hist.set k v }) ∧
    (∀ k : Fin 256, s.regWrite (.map k) v = { s with map := s.map.set k (v.extractLsb' 0 8) })

/-- 44_system.md R224: register writes while BUSY = 1: CTRL and STATUS are exempt, a reserved offset is ignored, every
other defined register keeps its value and BWERR is set; no word is accepted. -/
def Obligations.BusyRegisterWrites : Prop :=
  ∀ (s : State) (r : Reg) (v : Word), s.status.busy = true →
    s.regWrite r v =
      if r = .ctrl then { s with ie := v.getLsbD 0 }
      else if r = .status then { s with status := { s.status with
        done := s.status.done && !v.getLsbD 1, err := s.status.err && !v.getLsbD 2,
        degen := s.status.degen && !v.getLsbD 3, bwerr := s.status.bwerr && !v.getLsbD 4 } }
      else if r = .reserved then s
      else { s with status := { s.status with bwerr := true } }

/-- 10_state.md R40, R41 and 44_system.md R226, R227: a register reads back what was written to it while BUSY = 0, under
the mask of its defined bits, sign-extended for KN; a write to one register, CMD apart, changes what no other register
reads; and CMD reads back the word a CMD write was given. -/
def Obligations.RegisterReadBack : Prop :=
  ∀ (s : State) (r : Reg) (v : Word), s.status.busy = false →
    (s.regWrite .cmd v).readValue .cmd = v ∧
    (r ≠ .cmd → ∀ q : Reg, q ≠ r → (s.regWrite r v).readValue q = s.readValue q) ∧
    (r = .src ∨ r = .dst ∨ r = .len ∨ (∃ k, r = .hist k) → (s.regWrite r v).readValue r = v) ∧
    (r = .width ∨ r = .height ∨ r = .kdiv → (s.regWrite r v).readValue r = v &&& 0xFFFF#32) ∧
    (r = .ctrl → (s.regWrite r v).readValue r = v &&& 1#32) ∧
    (r = .fmt → (s.regWrite r v).readValue r = v &&& 0x13F#32) ∧
    ((∃ k, r = .map k) → (s.regWrite r v).readValue r = v &&& 0xFF#32) ∧
    ((∃ k, r = .kn k) → (s.regWrite r v).readValue r = (v.extractLsb' 0 16).signExtend 32) ∧
    (r = .id → (s.regWrite r v).readValue r = 0x49504501#32) ∧
    (r = .reserved → (s.regWrite r v).readValue r = 0#32)

/-- 10_state.md R21 to R35 and R41, 44_system.md R226, 60_exceptions.md R230: the word each register reads as. STATUS is
BUSY + 2 DONE + 4 ERR + 8 DEGEN + 16 BWERR, ERRCODE the number of the code, CMD the last accepted word, these three and
every register but the two tables also while BUSY = 1. 20_memory.md R62: a register read always completes, returns that
word and changes no register, no table and no memory; while BUSY = 1 a read of HIST or MAP returns a free value, MAP's
with bits 31:8 zero. -/
def Obligations.RegisterReadsHaveNoSideEffect : Prop :=
  (∀ s : State,
    (s.readValue .status).toNat = s.status.busy.toNat + 2 * s.status.done.toNat + 4 * s.status.err.toNat +
      8 * s.status.degen.toNat + 16 * s.status.bwerr.toNat ∧
    (∀ row ∈ ([(.noError, 0), (.eCmd, 1), (.eDepth, 2), (.eKernel, 3), (.eTrunc, 4), (.eAddr, 5), (.eAlias, 6)] :
        List (ErrCode × Nat)), s.errcode = row.1 → (s.readValue .errcode).toNat = row.2) ∧
    s.readValue .cmd = s.cmd ∧ s.readValue .id = 0x49504501#32 ∧ (s.readValue .ctrl).toNat = s.ie.toNat ∧
    s.readValue .src = s.src ∧ s.readValue .dst = s.dst ∧ s.readValue .len = s.len ∧
    (s.readValue .width).toNat = s.width.toNat ∧ (s.readValue .height).toNat = s.height.toNat ∧
    (s.readValue .fmt).toNat = s.bpp.toNat + 256 * s.td.toNat ∧ (s.readValue .kdiv).toNat = s.kdiv.toNat ∧
    (∀ k : Fin 25, (s.readValue (.kn k)).toInt = (s.kn[k]).toInt) ∧ s.readValue .reserved = 0#32 ∧
    (s.status.busy = false → (∀ k : Fin 256, s.readValue (.hist k) = s.hist[k]) ∧
      ∀ k : Fin 256, (s.readValue (.map k)).toNat = (s.map[k]).toNat)) ∧
  ∀ (s : State) (index : BitVec 10) (rest : List Input), s.inputs = .regRead index :: rest →
    ∃ (v : Word) (d : Nat), step s = .next { s with regRdata := v, draws := d, inputs := rest } ∧
      (s.status.busy = false ∨ (regAt index).isTable = false → v = s.readValue (regAt index) ∧ d = s.draws) ∧
      (∀ k, regAt index = .map k → v.extractLsb' 8 24 = 0#24)

/-- 60_exceptions.md R244: irq is the level IE AND DONE: low at acceptance, at completion (of a success and of a
failure alike) equal to IE, lowered by a W1C of bit 1, raised at once by setting IE while DONE = 1, masked by IE = 0. -/
def Obligations.InterruptLine : Prop :=
  ∀ s : State, s.irq = (s.ie && s.status.done) ∧ (∀ w, (s.accept w).irq = false) ∧
    (∀ t, s.status.busy = true → (s.inputs = [] ∨ ∃ rest, s.inputs = .engine :: rest) → step s = .next t →
      t.irq = s.ie ∧ t.ie = s.ie) ∧
    (∀ v : Word, v.getLsbD 1 = true → (s.regWrite .status v).irq = false) ∧
    (∀ v : Word, (s.regWrite .ctrl v).irq = (v.getLsbD 0 && s.status.done))

/-- 60_exceptions.md R240: the two ways to acknowledge an error: (a) a W1C write of bits 2 and 1 of STATUS clears ERR
and DONE and lowers irq, ERRCODE keeps the code, and nothing else changes; (b) the next command's acceptance clears
DONE, ERR, DEGEN and ERRCODE; it is always possible once BUSY = 0. -/
def Obligations.ErrorAcknowledge : Prop :=
  ∀ (s : State) (rest : List Input),
    (s.inputs = .regWrite 2#10 0x6#32 :: rest →
      ∃ t, step s = .next t ∧ t.irq = false ∧ t.errcode = s.errcode ∧
        t = { s with status := { s.status with done := false, err := false }, inputs := rest }) ∧
    (∀ w : Word, s.status.busy = false → s.inputs = .regWrite 4#10 w :: rest →
      ∃ t, step s = .next t ∧ t.cmd = w ∧ t.status.busy = true ∧ t.status.done = false ∧ t.status.err = false ∧
        t.status.degen = false ∧ t.errcode = .noError ∧ t.irq = false)

/-- 20_memory.md R60: a byte the host stores at an existing address is the byte it loads there while BUSY = 0; a store
leaves every other byte and every register alone, a load leaves everything. 44_system.md R225 and
70_reset_and_hazards.md R270: a store while BUSY = 1 is recorded (log entry 17), so that over any region the memory the
command was accepted with stays known; a load while BUSY = 1 gives the byte as it is or, only in the written region of a legal command
in flight, perhaps as that command would leave it (a free bit, log entry 9). An address at or above `MEM_BYTES` does not
exist, and an access to it stops the machine (the model's choice, log entry 11). -/
def Obligations.HostMemoryAccess : Prop :=
  ∀ (s : State) (a : Nat) (v : Byte) (rest : List Input), s.mem.wf = true →
    (a < s.params.memBytes →
      (s.inputs = .memWrite a v :: rest →
        ∃ m t, step s = .next t ∧
          t = { s with
            mem := m
            touched := if s.status.busy then (a, s.mem.read a) :: s.touched else s.touched
            inputs := rest } ∧
          m.read a = v ∧ (∀ b, b ≠ a → m.read b = s.mem.read b) ∧
          (s.status.busy = true → ∀ r b, r.contains b = true →
            (t.memAtAcceptance r).read b = (s.memAtAcceptance r).read b)) ∧
      (s.inputs = .memRead a :: rest → s.status.busy = false →
        step s = .next { s with hostRdata := s.mem.read a, inputs := rest }) ∧
      (s.inputs = .memRead a :: rest → s.status.busy = true →
        ∃ b, step s = .next { s with hostRdata := b, draws := s.draws + 1, inputs := rest } ∧
          (∀ i u, decode s.cmd = .ok i → exec i { s with inputs := rest } = .next u →
            (b = s.mem.read a ∨ b = u.mem.read a) ∧
            ((writtenRegion i s).contains a = false → b = s.mem.read a)) ∧
          (∀ e, decode s.cmd = .error e → b = s.mem.read a))) ∧
    (s.params.memBytes ≤ a → s.inputs = .memWrite a v :: rest ∨ s.inputs = .memRead a :: rest →
      step s = .fault (.noSuchAddress a))

/-- 70_reset_and_hazards.md R260, R262: a reset pulse gives every register its reset value and clears irq; memory is
untouched when the engine is idle; with a command in flight each byte is its old value or the value the command would
have left, and a byte outside the written region is unchanged (free bits, log
entry 10). -/
def Obligations.ResetPulse : Prop :=
  ∀ (s : State) (rest : List Input), s.mem.wf = true → s.inputs = .reset :: rest →
    ∃ t, step s = .next t ∧
      (∀ r : Reg, r.isTable = false →
        t.regValue r = if r = .id then 0x49504501#32 else if r = .kdiv then 1#32 else 0#32) ∧
      t.irq = false ∧ t.params = s.params ∧ t.inputs = rest ∧
      (s.status.busy = false → t.mem = s.mem) ∧
      (∀ i u, s.status.busy = true → decode s.cmd = .ok i → exec i { s with inputs := rest } = .next u →
        ∀ a, (t.mem.read a = s.mem.read a ∨ t.mem.read a = u.mem.read a) ∧
          ((writtenRegion i s).contains a = false → t.mem.read a = s.mem.read a)) ∧
      (∀ e, s.status.busy = true → decode s.cmd = .error e → ∀ a, t.mem.read a = s.mem.read a)

/-- 70_reset_and_hazards.md R270 (b), 93_implementation_defined.md U4: where the host wrote no byte of the source region
of a command that passes its checks, each byte it did write holds the host's or the engine's value, and every other
byte, every table entry and every register is as if the host had kept out (log entry 9). -/
def Obligations.BrokenDestinationHazardIsConfined : Prop :=
  ∀ (i : Instr) (s t u : State), s.mem.wf = true → checksPass i s →
    (∀ c ∈ s.touched, (sourceRegion i s).contains c.1 = false) →
    exec i s = .next t → exec i { s with touched := [] } = .next u →
    (∀ a, (s.hostWrote a = true → t.mem.read a = s.mem.read a ∨ t.mem.read a = u.mem.read a) ∧
      (s.hostWrote a = false → t.mem.read a = u.mem.read a)) ∧
    t = { u with mem := t.mem, touched := s.touched, draws := t.draws }
end

