-- ==== Sys2Proof/Laws/Arith.lean ====
section
/-! SUPPORT. Facts about clamp, tdiv, rdiv, pad and tabulate (00_scope.md R9). -/

namespace Sys2Proof.Machine

theorem clamp_le {v lo hi : Int} (h : lo ≤ hi) : clamp v lo hi ≤ hi := by unfold clamp; split_ifs <;> omega

theorem le_clamp {v lo hi : Int} (h : lo ≤ hi) : lo ≤ clamp v lo hi := by unfold clamp; split_ifs <;> omega

theorem clamp_of_mem {v lo hi : Int} (h1 : lo ≤ v) (h2 : v ≤ hi) : clamp v lo hi = v := by
  unfold clamp; split_ifs <;> omega

theorem clamp_of_lt {v lo hi : Int} (h : v < lo) : clamp v lo hi = lo := by simp [clamp, h]

theorem clamp_of_gt {v lo hi : Int} (h : lo ≤ hi) (h' : hi < v) : clamp v lo hi = hi := by
  unfold clamp; split_ifs <;> omega

/-- A clamped byte holds the clamped value: nothing is truncated (20_memory.md R78). -/
theorem clampByte_toNat (v : Int) : ((clampByte v).toNat : Int) = clamp v 0 255 := by
  have h1 : 0 ≤ clamp v 0 255 := le_clamp (by decide)
  have h2 : clamp v 0 255 ≤ 255 := clamp_le (by decide)
  unfold clampByte
  rw [BitVec.toNat_ofInt]
  omega

theorem tdiv_eq_int_tdiv (a : Int) {b : Int} (_hb : 0 < b) : tdiv a b = Int.tdiv a b := by
  unfold tdiv
  split_ifs with h
  · exact (Int.tdiv_eq_ediv_of_nonneg h).symm
  · rw [← Int.tdiv_eq_ediv_of_nonneg (by omega : 0 ≤ -a), Int.neg_tdiv, neg_neg]

theorem pad_lt (n : Nat) : pad n < 4 := by unfold pad; omega

/-- A row with its padding is a multiple of 4 bytes long (40_scanline.md R123). -/
theorem add_pad_mod (n : Nat) : (n + pad n) % 4 = 0 := by unfold pad; omega

@[simp] theorem tabulate_getElem {α : Type} (n : Nat) (f : Nat → α) (i : Nat) (h : i < n) :
    (tabulate n f)[i] = f i := by simp [tabulate]

theorem tabulate_toList {α : Type} (n : Nat) (f : Nat → α) : (tabulate n f).toList = (List.range n).map f := by
  simp [tabulate]

end Sys2Proof.Machine
end

