-- ==== Sys2Proof/Laws/Layout.lean ====
section
/-! SUPPORT. The addressing functions: each stays inside its region and no two indices share an address
(20_memory.md R68 to R71). -/

namespace Sys2Proof.Machine

variable (s : State)

theorem mul_add_inj {n q r q' r' : Nat} (hr : r < n) (hr' : r' < n) (h : q * n + r = q' * n + r') :
    q = q' ∧ r = r' := by
  have hq : q = q' := by
    have h1 : (q * n + r) / n = q := by
      rw [Nat.mul_comm, Nat.mul_add_div (by omega), Nat.div_eq_of_lt hr, Nat.add_zero]
    have h2 : (q' * n + r') / n = q' := by
      rw [Nat.mul_comm, Nat.mul_add_div (by omega), Nat.div_eq_of_lt hr', Nat.add_zero]
    rw [← h1, ← h2, h]
  subst hq
  exact ⟨rfl, by omega⟩

theorem mul_add_lt {n q r m : Nat} (hr : r < n) (hq : q < m) : q * n + r < m * n := by
  have : (q + 1) * n ≤ m * n := Nat.mul_le_mul_right n hq
  rw [Nat.add_mul, Nat.one_mul] at this
  omega

theorem State.bppb_pos : 0 < s.bppb := by unfold State.bppb; split_ifs <;> omega

theorem State.bppb_eq_one {s : State} (h : s.bpp = 8#6) : s.bppb = 1 := by simp [State.bppb, h]

theorem State.bppb_eq_three {s : State} (h : s.bpp = 24#6) : s.bppb = 3 := by simp [State.bppb, h]

theorem State.bppb_of_ne {s : State} (h : s.bpp ≠ 8#6) : s.bppb = 3 := by simp [State.bppb, h]

theorem Region.contains_iff (r : Region) (a : Nat) :
    r.contains a = true ↔ r.base ≤ a ∧ a < r.base + r.len := by simp [Region.contains]

@[simp] theorem noRegion_contains (a : Nat) : noRegion.contains a = false := by simp [noRegion, Region.contains]

theorem State.inRange_iff (r : Region) :
    s.inRange r = true ↔ r.len = 0 ∨ r.base + r.len ≤ s.params.memBytes := by simp [State.inRange]

theorem Region.overlaps_iff (a b : Region) :
    a.overlaps b = true ↔ 0 < a.len ∧ 0 < b.len ∧ a.base < b.base + b.len ∧ b.base < a.base + a.len := by
  simp [Region.overlaps, and_assoc]

/-- Regions that do not overlap share no byte (20_memory.md R73). -/
theorem Region.disjoint_of_not_overlaps {a b : Region} (h : a.overlaps b = false) {x : Nat}
    (hx : a.contains x = true) : b.contains x = false := by
  rw [Region.contains_iff] at hx
  rw [← Bool.not_eq_true, Region.contains_iff]
  rw [← Bool.not_eq_true, Region.overlaps_iff] at h
  omega

theorem State.yrow_lt {s : State} {r : Nat} (h : r < s.h) : s.yrow r < s.h := by
  unfold State.yrow; split_ifs <;> omega

theorem State.yrow_inj {s : State} {r q : Nat} (hr : r < s.h) (hq : q < s.h) (h : s.yrow r = s.yrow q) : r = q := by
  unfold State.yrow at h; split_ifs at h <;> omega

theorem State.yrow_yrow {s : State} {r : Nat} (h : r < s.h) : s.yrow (s.yrow r) = r := by
  unfold State.yrow; split_ifs <;> omega

theorem State.diskChannel_lt (k : Nat) : s.diskChannel k < s.bppb := by
  have := s.bppb_pos; unfold State.diskChannel; omega

theorem State.diskChannel_diskChannel {s : State} {k : Nat} (h : k < s.bppb) :
    s.diskChannel (s.diskChannel k) = k := by unfold State.diskChannel; omega

/-- PA stays inside the Pixel Store (20_memory.md R68). -/
theorem State.pixelAddr_mem {s : State} {base x y c : Nat} (hx : x < s.w) (hy : y < s.h) (hc : c < s.bppb) :
    base ≤ s.pixelAddr base x y c ∧ s.pixelAddr base x y c < base + s.storeBytes := by
  have h1 : y * s.w + x < s.h * s.w := mul_add_lt hx hy
  have h2 : (y * s.w + x) * s.bppb + c < s.h * s.w * s.bppb := mul_add_lt hc h1
  unfold State.pixelAddr State.storeBytes State.npix
  rw [Nat.mul_comm s.w s.h]
  omega

/-- No two samples of a Pixel Store share an address (20_memory.md R68). -/
theorem State.pixelAddr_inj {s : State} {base x y c x' y' c' : Nat} (hx : x < s.w) (hx' : x' < s.w)
    (hc : c < s.bppb) (hc' : c' < s.bppb) (h : s.pixelAddr base x y c = s.pixelAddr base x' y' c') :
    x = x' ∧ y = y' ∧ c = c' := by
  unfold State.pixelAddr at h
  obtain ⟨h1, h2⟩ := mul_add_inj hc hc' (by omega : (y * s.w + x) * s.bppb + c = (y' * s.w + x') * s.bppb + c')
  obtain ⟨h3, h4⟩ := mul_add_inj hx hx' h1
  exact ⟨h4, h3, h2⟩

theorem State.pixelAddr_eq_index (base x y c : Nat) :
    s.pixelAddr base x y c = base + (y * s.w + x) * s.bppb + c := rfl

/-- Every byte of a Pixel Store is a sample (20_memory.md R68). -/
theorem State.exists_pixelAddr {s : State} {base a : Nat} (h1 : base ≤ a) (h2 : a < base + s.storeBytes) :
    ∃ x y c, x < s.w ∧ y < s.h ∧ c < s.bppb ∧ a = s.pixelAddr base x y c := by
  have hb := s.bppb_pos
  have h3 : a - base < s.h * s.w * s.bppb := by
    unfold State.storeBytes State.npix at h2; rw [Nat.mul_comm s.h s.w]; omega
  have h4 : (a - base) / s.bppb < s.h * s.w := Nat.div_lt_of_lt_mul (by rw [Nat.mul_comm]; exact h3)
  have hw : 0 < s.w := by
    rcases Nat.eq_zero_or_pos s.w with h | h
    · rw [h] at h4; simp at h4
    · exact h
  refine ⟨(a - base) / s.bppb % s.w, (a - base) / s.bppb / s.w, (a - base) % s.bppb, Nat.mod_lt _ hw,
    Nat.div_lt_of_lt_mul (by rw [Nat.mul_comm]; exact h4), Nat.mod_lt _ hb, ?_⟩
  unfold State.pixelAddr
  have e1 := Nat.div_add_mod (a - base) s.bppb
  have e2 := Nat.div_add_mod ((a - base) / s.bppb) s.w
  rw [Nat.mul_comm ((a - base) / s.bppb / s.w) s.w, e2, Nat.mul_comm ((a - base) / s.bppb) s.bppb]
  omega

theorem State.rowb_le_stride : s.rowb ≤ s.stride := by unfold State.stride; omega

theorem State.diskByte_lt {s : State} {x k : Nat} (hx : x < s.w) (hk : k < s.bppb) : x * s.bppb + k < s.rowb := by
  unfold State.rowb; exact mul_add_lt hk hx

/-- DA stays inside the on-disk array (20_memory.md R69). -/
theorem State.diskAddr_mem {s : State} {base x r k : Nat} (hx : x < s.w) (hr : r < s.h) (hk : k < s.bppb) :
    base ≤ s.diskAddr base x r k ∧ s.diskAddr base x r k < base + s.diskBytes := by
  have h1 := State.diskByte_lt hx hk
  have h2 := s.rowb_le_stride
  have h3 : r * s.stride + (x * s.bppb + k) < s.h * s.stride := mul_add_lt (by omega) hr
  unfold State.diskAddr State.diskBytes
  omega

/-- Padding bytes lie inside the on-disk array (20_memory.md R69). -/
theorem State.padAddr_mem {s : State} {base r p : Nat} (hr : r < s.h) (hp : p < s.padb) :
    base ≤ s.padAddr base r p ∧ s.padAddr base r p < base + s.diskBytes := by
  have h3 : r * s.stride + (s.rowb + p) < s.h * s.stride := mul_add_lt (by unfold State.stride; omega) hr
  unfold State.padAddr State.diskBytes
  omega

/-- No two pixel bytes of an on-disk array share an address (20_memory.md R69). -/
theorem State.diskAddr_inj {s : State} {base x r k x' r' k' : Nat} (hx : x < s.w) (hx' : x' < s.w)
    (hk : k < s.bppb) (hk' : k' < s.bppb) (h : s.diskAddr base x r k = s.diskAddr base x' r' k') :
    x = x' ∧ r = r' ∧ k = k' := by
  have h1 := State.diskByte_lt hx hk
  have h1' := State.diskByte_lt hx' hk'
  have h2 := s.rowb_le_stride
  unfold State.diskAddr at h
  obtain ⟨h3, h4⟩ := mul_add_inj (n := s.stride) (q := r) (r := x * s.bppb + k) (q' := r') (r' := x' * s.bppb + k')
    (by omega) (by omega) (by omega)
  obtain ⟨h5, h6⟩ := mul_add_inj hk hk' h4
  exact ⟨h5, h3, h6⟩

/-- No two padding bytes share an address (20_memory.md R69). -/
theorem State.padAddr_inj {s : State} {base r p r' p' : Nat} (hp : p < s.padb) (hp' : p' < s.padb)
    (h : s.padAddr base r p = s.padAddr base r' p') : r = r' ∧ p = p' := by
  unfold State.padAddr at h
  obtain ⟨h3, h4⟩ := mul_add_inj (n := s.stride) (q := r) (r := s.rowb + p) (q' := r') (r' := s.rowb + p')
    (by unfold State.stride; omega) (by unfold State.stride; omega) (by omega)
  exact ⟨h3, by omega⟩

/-- No pixel byte is a padding byte (20_memory.md R69). -/
theorem State.diskAddr_ne_padAddr {s : State} {base x r k r' p : Nat} (hx : x < s.w) (hk : k < s.bppb)
    (hp : p < s.padb) : s.diskAddr base x r k ≠ s.padAddr base r' p := by
  intro h
  have h1 := State.diskByte_lt hx hk
  unfold State.diskAddr State.padAddr at h
  obtain ⟨h3, h4⟩ := mul_add_inj (n := s.stride) (q := r) (r := x * s.bppb + k) (q' := r') (r' := s.rowb + p)
    (by unfold State.stride; omega) (by unfold State.stride; omega) (by omega)
  omega

theorem rgbAddr_mem {base p c n : Nat} (hp : p < n) (hc : c < 3) :
    base ≤ rgbAddr base p c ∧ rgbAddr base p c < base + n * 3 := by unfold rgbAddr; omega

theorem rgbAddr_inj {base p c p' c' : Nat} (hc : c < 3) (hc' : c' < 3) (h : rgbAddr base p c = rgbAddr base p' c') :
    p = p' ∧ c = c' := by unfold rgbAddr at h; omega

end Sys2Proof.Machine
end

