-- ==== Sys2Proof/Laws/Memory.lean ====
section
/-! SUPPORT. The laws of data memory: reads after writes, and the canonical form (20_memory.md R60, R66). -/

namespace Sys2Proof.Machine

/-- Every listed address is at least a. -/
def Memory.above (m : Memory) (a : Nat) : Prop := ∀ c ∈ m, a ≤ c.1

theorem Memory.wf_tail {c : Host.Cell} {m : Memory} (h : Memory.wf (c :: m) = true) : Memory.wf m = true := by
  cases m with
  | nil => rfl
  | cons d r => obtain ⟨k, v⟩ := c; obtain ⟨k', v'⟩ := d; simp [Memory.wf] at h; exact h.2

theorem Memory.wf_head_ne {k : Nat} {v : Byte} {m : Memory} (h : Memory.wf ((k, v) :: m) = true) : v ≠ unlisted := by
  cases m with
  | nil => simpa [Memory.wf] using h
  | cons d r => obtain ⟨k', v'⟩ := d; simp [Memory.wf] at h; exact h.1.1

theorem Memory.wf_head_lt {k : Nat} {v : Byte} {m : Memory} (h : Memory.wf ((k, v) :: m) = true) :
    Memory.above m (k + 1) := by
  induction m generalizing k v with
  | nil => intro c hc; cases hc
  | cons d r ih =>
    obtain ⟨k', v'⟩ := d
    have hlt : k < k' := by simp [Memory.wf] at h; exact h.1.2
    intro c hc
    rcases List.mem_cons.mp hc with rfl | hc
    · exact hlt
    · have := ih (Memory.wf_tail h) c hc; omega

theorem Memory.wf_cons {k : Nat} {v : Byte} {m : Memory} (hv : v ≠ unlisted) (hm : m.wf = true)
    (ha : Memory.above m (k + 1)) : Memory.wf ((k, v) :: m) = true := by
  cases m with
  | nil => simpa [Memory.wf] using hv
  | cons d r =>
    obtain ⟨k', v'⟩ := d
    have hlt : k + 1 ≤ k' := ha (k', v') (List.mem_cons_self ..)
    simp only [Memory.wf, Bool.and_eq_true, bne_iff_ne, ne_eq, decide_eq_true_eq]
    exact ⟨⟨hv, hlt⟩, hm⟩

theorem Memory.read_of_above {m : Memory} {a : Nat} (h : Memory.above m (a + 1)) : m.read a = unlisted := by
  cases m with
  | nil => rfl
  | cons d r =>
    obtain ⟨k, v⟩ := d
    have : a + 1 ≤ k := h (k, v) (List.mem_cons_self ..)
    simp [Memory.read, show a < k by omega]

theorem Memory.mem_write {m : Memory} {a : Nat} {v : Byte} {c : Host.Cell} (h : c ∈ m.write a v) : c ∈ m ∨ c.1 = a := by
  induction m with
  | nil =>
    simp only [Memory.write] at h
    split_ifs at h <;> simp_all
  | cons d r ih =>
    obtain ⟨k, u⟩ := d
    simp only [Memory.write] at h
    split_ifs at h <;> simp only [List.mem_cons] at h ⊢
    · exact Or.inl h
    · rcases h with h | h
      · exact Or.inr (by rw [h])
      · exact Or.inl h
    · exact Or.inl (Or.inr h)
    · rcases h with h | h
      · exact Or.inr (by rw [h])
      · exact Or.inl (Or.inr h)
    · rcases h with h | h
      · exact Or.inl (Or.inl h)
      · rcases ih h with h | h
        · exact Or.inl (Or.inr h)
        · exact Or.inr h

/-- Every memory operation keeps the canonical form: one byte write. -/
theorem Memory.wf_write {m : Memory} (h : m.wf = true) (a : Nat) (v : Byte) : (m.write a v).wf = true := by
  induction m with
  | nil =>
    simp only [Memory.write]
    split_ifs with hv
    · rfl
    · simpa [Memory.wf] using hv
  | cons d r ih =>
    obtain ⟨k, u⟩ := d
    have hr := Memory.wf_tail h
    have hu := Memory.wf_head_ne h
    have hk := Memory.wf_head_lt h
    simp only [Memory.write]
    split_ifs with h1 h2 h3 h4
    · exact h
    · refine Memory.wf_cons h2 h ?_
      intro c hc
      rcases List.mem_cons.mp hc with rfl | hc
      · exact h1
      · have := hk c hc; omega
    · exact hr
    · exact Memory.wf_cons h4 hr (h3 ▸ hk)
    · refine Memory.wf_cons hu (ih hr) ?_
      intro c hc
      rcases Memory.mem_write hc with hc | hc
      · exact hk c hc
      · omega

/-- A read after a write to the same address gives the value written. -/
theorem Memory.read_write_same {m : Memory} (h : m.wf = true) (a : Nat) (v : Byte) : (m.write a v).read a = v := by
  induction m with
  | nil =>
    simp only [Memory.write]
    split_ifs with hv
    · simp [Memory.read, hv]
    · simp [Memory.read]
  | cons d r ih =>
    obtain ⟨k, u⟩ := d
    have hk := Memory.wf_head_lt h
    simp only [Memory.write]
    split_ifs with h1 h2 h3 h4
    · simp [Memory.read, h1, h2]
    · simp [Memory.read]
    · rw [Memory.read_of_above (h3 ▸ hk), h4]
    · simp [Memory.read]
    · simp [Memory.read, h1, h3, ih (Memory.wf_tail h)]

/-- A write leaves every other address alone. -/
theorem Memory.read_write_other {m : Memory} (h : m.wf = true) {a b : Nat} (v : Byte) (hab : b ≠ a) :
    (m.write a v).read b = m.read b := by
  induction m with
  | nil =>
    simp only [Memory.write]
    split_ifs with hv
    · rfl
    · simp only [Memory.read]; split_ifs <;> rfl
  | cons d r ih =>
    obtain ⟨k, u⟩ := d
    have hk := Memory.wf_head_lt h
    simp only [Memory.write]
    split_ifs with h1 h2 h3 h4
    · rfl
    · by_cases hba : b < a
      · simp [Memory.read, hba, show b < k by omega]
      · rw [Memory.read]; simp [hba, hab]
    · subst h3
      by_cases hba : b < a
      · simp only [Memory.read, hba, if_true]
        exact Memory.read_of_above (fun c hc => by have := hk c hc; omega)
      · simp [Memory.read, hba, hab]
    · subst h3
      by_cases hba : b < a
      · simp [Memory.read, hba]
      · simp [Memory.read, hba, hab]
    · simp only [Memory.read]
      split_ifs with h5 h6
      · rfl
      · rfl
      · exact ih (Memory.wf_tail h)

theorem Memory.read_write {m : Memory} (h : m.wf = true) (a b : Nat) (v : Byte) :
    (m.write a v).read b = if b = a then v else m.read b := by
  split_ifs with hab
  · rw [hab]; exact Memory.read_write_same h a v
  · exact Memory.read_write_other h v hab

@[simp] theorem Memory.writeAll_nil (m : Memory) : m.writeAll [] = m := rfl

@[simp] theorem Memory.writeAll_cons (m : Memory) (c : Host.Cell) (cs : List Host.Cell) :
    m.writeAll (c :: cs) = (m.write c.1 c.2).writeAll cs := rfl

theorem Memory.writeAll_append (m : Memory) (cs ds : List Host.Cell) :
    m.writeAll (cs ++ ds) = (m.writeAll cs).writeAll ds := by simp [Memory.writeAll, List.foldl_append]

/-- Every memory operation keeps the canonical form: a list of byte writes. -/
theorem Memory.wf_writeAll {m : Memory} (h : m.wf = true) (cs : List Host.Cell) : (m.writeAll cs).wf = true := by
  induction cs generalizing m with
  | nil => exact h
  | cons c cs ih => exact ih (Memory.wf_write h c.1 c.2)

theorem Memory.mem_writeAll {m : Memory} {cs : List Host.Cell} {c : Host.Cell} (h : c ∈ m.writeAll cs) :
    c ∈ m ∨ ∃ d ∈ cs, d.1 = c.1 := by
  induction cs generalizing m with
  | nil => exact Or.inl h
  | cons d ds ih =>
    rcases ih h with h | ⟨e, he, hc⟩
    · rcases Memory.mem_write h with h | h
      · exact Or.inl h
      · exact Or.inr ⟨d, List.mem_cons_self .., h.symm⟩
    · exact Or.inr ⟨e, List.mem_cons_of_mem _ he, hc⟩

/-- A list of writes leaves every address it does not name alone. -/
theorem Memory.read_writeAll_of_notMem {m : Memory} (h : m.wf = true) {cs : List Host.Cell} {a : Nat}
    (ha : ∀ c ∈ cs, c.1 ≠ a) : (m.writeAll cs).read a = m.read a := by
  induction cs generalizing m with
  | nil => rfl
  | cons c cs ih =>
    rw [Memory.writeAll_cons, ih (Memory.wf_write h ..) (fun d hd => ha d (List.mem_cons_of_mem _ hd))]
    exact Memory.read_write_other h _ (fun e => ha c (List.mem_cons_self ..) e.symm)

/-- The same writes keep the agreement of two memories at an address. -/
theorem Memory.read_writeAll_congr {m n : Memory} {a : Nat} (hm : m.wf = true) (hn : n.wf = true)
    (h : m.read a = n.read a) (cs : List Host.Cell) : (m.writeAll cs).read a = (n.writeAll cs).read a := by
  induction cs generalizing m n with
  | nil => exact h
  | cons c cs ih =>
    refine ih (Memory.wf_write hm ..) (Memory.wf_write hn ..) ?_
    rw [Memory.read_write hm, Memory.read_write hn, h]

/-- If every write to the address a carries the value v, and there is one, reading a afterwards gives v. -/
theorem Memory.read_writeAll_of_agree {m : Memory} (h : m.wf = true) {cs : List Host.Cell} {a : Nat} {v : Byte}
    (hv : ∀ c ∈ cs, c.1 = a → c.2 = v) (ha : ∃ c ∈ cs, c.1 = a) : (m.writeAll cs).read a = v := by
  induction cs generalizing m with
  | nil => obtain ⟨c, hc, _⟩ := ha; cases hc
  | cons c cs ih =>
    rw [Memory.writeAll_cons]
    by_cases hex : ∃ d ∈ cs, d.1 = a
    · exact ih (Memory.wf_write h ..) (fun d hd => hv d (List.mem_cons_of_mem _ hd)) hex
    · obtain ⟨d, hd, hda⟩ := ha
      rcases List.mem_cons.mp hd with rfl | hd'
      · rw [Memory.read_writeAll_of_notMem (Memory.wf_write h ..) (fun e he hea => hex ⟨e, he, hea⟩), ← hda,
          Memory.read_write_same h]
        exact hv d (List.mem_cons_self ..) hda
      · exact absurd ⟨d, hd', hda⟩ hex

theorem Memory.read_of_lt_head {k a : Nat} {v : Byte} {m : Memory} (h : a < k) :
    Memory.read ((k, v) :: m) a = unlisted := by simp [Memory.read, h]

theorem Memory.read_head (k : Nat) (v : Byte) (m : Memory) : Memory.read ((k, v) :: m) k = v := by
  simp [Memory.read]

/-- Canonical memories that read the same everywhere are the same data. -/
theorem Memory.eq_of_read_eq {m n : Memory} (hm : m.wf = true) (hn : n.wf = true)
    (h : ∀ a, m.read a = n.read a) : m = n := by
  induction m generalizing n with
  | nil =>
    cases n with
    | nil => rfl
    | cons d r =>
      obtain ⟨k, v⟩ := d
      have := h k
      rw [Memory.read_head] at this
      exact absurd this.symm (Memory.wf_head_ne hn)
  | cons c r ih =>
    obtain ⟨k, v⟩ := c
    cases n with
    | nil =>
      have := h k
      rw [Memory.read_head] at this
      exact absurd this (Memory.wf_head_ne hm)
    | cons d q =>
      obtain ⟨k', v'⟩ := d
      have hkk : k = k' := by
        rcases Nat.lt_trichotomy k k' with hlt | heq | hgt
        · have := h k
          rw [Memory.read_head, Memory.read_of_lt_head hlt] at this
          exact absurd this (Memory.wf_head_ne hm)
        · exact heq
        · have := h k'
          rw [Memory.read_head, Memory.read_of_lt_head hgt] at this
          exact absurd this.symm (Memory.wf_head_ne hn)
      subst hkk
      have hv : v = v' := by simpa [Memory.read_head] using h k
      subst hv
      have hrq : r = q := by
        refine ih (Memory.wf_tail hm) (Memory.wf_tail hn) (fun a => ?_)
        by_cases hak : a ≤ k
        · rw [Memory.read_of_above (fun c hc => by have := Memory.wf_head_lt hm c hc; omega),
            Memory.read_of_above (fun c hc => by have := Memory.wf_head_lt hn c hc; omega)]
        · have := h a
          simpa [Memory.read, show ¬ a < k by omega, show a ≠ k by omega] using this
      rw [hrq]

/-- Writing a word byte by byte and reading it back byte by byte gives the word (20_memory.md R65, R66). -/
theorem readWord_eq_of_bytes {m : Memory} {a : Nat} {v : Word} (h0 : m.read a = v.extractLsb' 0 8)
    (h1 : m.read (a + 1) = v.extractLsb' 8 8) (h2 : m.read (a + 2) = v.extractLsb' 16 8)
    (h3 : m.read (a + 3) = v.extractLsb' 24 8) : m.readWord a = v := by
  unfold Memory.readWord
  rw [h0, h1, h2, h3]
  apply BitVec.eq_of_getLsbD_eq
  intro i hi
  simp only [BitVec.getLsbD_append, BitVec.getLsbD_extractLsb']
  interval_cases i <;> simp

end Sys2Proof.Machine
end

