-- ==== Sys2Proof/Laws/State.lean ====
section
/-! SUPPORT. One lemma per field per update of State, each true by rfl, so that no proof unfolds a record update. -/

namespace Sys2Proof.Machine

variable (s : State)

@[simp] theorem State.accept_params (w : Word) : (s.accept w).params = s.params := rfl
@[simp] theorem State.accept_ie (w : Word) : (s.accept w).ie = s.ie := rfl
@[simp] theorem State.accept_status (w : Word) : (s.accept w).status = s.status.accepted := rfl
@[simp] theorem State.accept_errcode (w : Word) : (s.accept w).errcode = .noError := rfl
@[simp] theorem State.accept_cmd (w : Word) : (s.accept w).cmd = w := rfl
@[simp] theorem State.accept_src (w : Word) : (s.accept w).src = s.src := rfl
@[simp] theorem State.accept_dst (w : Word) : (s.accept w).dst = s.dst := rfl
@[simp] theorem State.accept_width (w : Word) : (s.accept w).width = s.width := rfl
@[simp] theorem State.accept_height (w : Word) : (s.accept w).height = s.height := rfl
@[simp] theorem State.accept_bpp (w : Word) : (s.accept w).bpp = s.bpp := rfl
@[simp] theorem State.accept_td (w : Word) : (s.accept w).td = s.td := rfl
@[simp] theorem State.accept_len (w : Word) : (s.accept w).len = s.len := rfl
@[simp] theorem State.accept_kdiv (w : Word) : (s.accept w).kdiv = s.kdiv := rfl
@[simp] theorem State.accept_kn (w : Word) : (s.accept w).kn = s.kn := rfl
@[simp] theorem State.accept_hist (w : Word) : (s.accept w).hist = s.hist := rfl
@[simp] theorem State.accept_map (w : Word) : (s.accept w).map = s.map := rfl
@[simp] theorem State.accept_mem (w : Word) : (s.accept w).mem = s.mem := rfl
@[simp] theorem State.accept_inputs (w : Word) : (s.accept w).inputs = s.inputs := rfl
@[simp] theorem State.accept_touched (w : Word) : (s.accept w).touched = [] := rfl
@[simp] theorem State.accept_draws (w : Word) : (s.accept w).draws = s.draws := rfl
@[simp] theorem State.accept_regRdata (w : Word) : (s.accept w).regRdata = s.regRdata := rfl
@[simp] theorem State.accept_hostRdata (w : Word) : (s.accept w).hostRdata = s.hostRdata := rfl

@[simp] theorem State.acceptNext_params (w : Word) : (s.acceptNext w).params = s.params := rfl
@[simp] theorem State.acceptNext_ie (w : Word) : (s.acceptNext w).ie = s.ie := rfl
@[simp] theorem State.acceptNext_status (w : Word) : (s.acceptNext w).status = s.status.accepted := rfl
@[simp] theorem State.acceptNext_errcode (w : Word) : (s.acceptNext w).errcode = .noError := rfl
@[simp] theorem State.acceptNext_cmd (w : Word) : (s.acceptNext w).cmd = w := rfl
@[simp] theorem State.acceptNext_src (w : Word) : (s.acceptNext w).src = s.src := rfl
@[simp] theorem State.acceptNext_dst (w : Word) : (s.acceptNext w).dst = s.dst := rfl
@[simp] theorem State.acceptNext_width (w : Word) : (s.acceptNext w).width = s.width := rfl
@[simp] theorem State.acceptNext_height (w : Word) : (s.acceptNext w).height = s.height := rfl
@[simp] theorem State.acceptNext_bpp (w : Word) : (s.acceptNext w).bpp = s.bpp := rfl
@[simp] theorem State.acceptNext_td (w : Word) : (s.acceptNext w).td = s.td := rfl
@[simp] theorem State.acceptNext_len (w : Word) : (s.acceptNext w).len = s.len := rfl
@[simp] theorem State.acceptNext_kdiv (w : Word) : (s.acceptNext w).kdiv = s.kdiv := rfl
@[simp] theorem State.acceptNext_kn (w : Word) : (s.acceptNext w).kn = s.kn := rfl
@[simp] theorem State.acceptNext_hist (w : Word) : (s.acceptNext w).hist = s.hist := rfl
@[simp] theorem State.acceptNext_map (w : Word) : (s.acceptNext w).map = s.map := rfl
@[simp] theorem State.acceptNext_mem (w : Word) : (s.acceptNext w).mem = s.mem := rfl
@[simp] theorem State.acceptNext_inputs (w : Word) :
    (s.acceptNext w).inputs = if s.inputs.isEmpty then [] else .engine :: s.inputs := rfl
@[simp] theorem State.acceptNext_touched (w : Word) : (s.acceptNext w).touched = [] := rfl
@[simp] theorem State.acceptNext_draws (w : Word) : (s.acceptNext w).draws = s.draws := rfl
@[simp] theorem State.acceptNext_regRdata (w : Word) : (s.acceptNext w).regRdata = s.regRdata := rfl
@[simp] theorem State.acceptNext_hostRdata (w : Word) : (s.acceptNext w).hostRdata = s.hostRdata := rfl

@[simp] theorem State.enterError_params (e : ErrCode) : (s.enterError e).params = s.params := rfl
@[simp] theorem State.enterError_ie (e : ErrCode) : (s.enterError e).ie = s.ie := rfl
@[simp] theorem State.enterError_status (e : ErrCode) : (s.enterError e).status = s.status.failed := rfl
@[simp] theorem State.enterError_errcode (e : ErrCode) : (s.enterError e).errcode = e := rfl
@[simp] theorem State.enterError_cmd (e : ErrCode) : (s.enterError e).cmd = s.cmd := rfl
@[simp] theorem State.enterError_src (e : ErrCode) : (s.enterError e).src = s.src := rfl
@[simp] theorem State.enterError_dst (e : ErrCode) : (s.enterError e).dst = s.dst := rfl
@[simp] theorem State.enterError_width (e : ErrCode) : (s.enterError e).width = s.width := rfl
@[simp] theorem State.enterError_height (e : ErrCode) : (s.enterError e).height = s.height := rfl
@[simp] theorem State.enterError_bpp (e : ErrCode) : (s.enterError e).bpp = s.bpp := rfl
@[simp] theorem State.enterError_td (e : ErrCode) : (s.enterError e).td = s.td := rfl
@[simp] theorem State.enterError_len (e : ErrCode) : (s.enterError e).len = s.len := rfl
@[simp] theorem State.enterError_kdiv (e : ErrCode) : (s.enterError e).kdiv = s.kdiv := rfl
@[simp] theorem State.enterError_kn (e : ErrCode) : (s.enterError e).kn = s.kn := rfl
@[simp] theorem State.enterError_hist (e : ErrCode) : (s.enterError e).hist = s.hist := rfl
@[simp] theorem State.enterError_map (e : ErrCode) : (s.enterError e).map = s.map := rfl
@[simp] theorem State.enterError_mem (e : ErrCode) : (s.enterError e).mem = s.mem := rfl
@[simp] theorem State.enterError_inputs (e : ErrCode) : (s.enterError e).inputs = s.inputs := rfl
@[simp] theorem State.enterError_touched (e : ErrCode) : (s.enterError e).touched = s.touched := rfl
@[simp] theorem State.enterError_draws (e : ErrCode) : (s.enterError e).draws = s.draws := rfl
@[simp] theorem State.enterError_regRdata (e : ErrCode) : (s.enterError e).regRdata = s.regRdata := rfl
@[simp] theorem State.enterError_hostRdata (e : ErrCode) : (s.enterError e).hostRdata = s.hostRdata := rfl

@[simp] theorem State.acknowledge_params (v : Word) : (s.acknowledge v).params = s.params := rfl
@[simp] theorem State.acknowledge_ie (v : Word) : (s.acknowledge v).ie = s.ie := rfl
@[simp] theorem State.acknowledge_status (v : Word) : (s.acknowledge v).status = s.status.writeOneToClear v := rfl
@[simp] theorem State.acknowledge_errcode (v : Word) : (s.acknowledge v).errcode = s.errcode := rfl
@[simp] theorem State.acknowledge_cmd (v : Word) : (s.acknowledge v).cmd = s.cmd := rfl
@[simp] theorem State.acknowledge_src (v : Word) : (s.acknowledge v).src = s.src := rfl
@[simp] theorem State.acknowledge_dst (v : Word) : (s.acknowledge v).dst = s.dst := rfl
@[simp] theorem State.acknowledge_width (v : Word) : (s.acknowledge v).width = s.width := rfl
@[simp] theorem State.acknowledge_height (v : Word) : (s.acknowledge v).height = s.height := rfl
@[simp] theorem State.acknowledge_bpp (v : Word) : (s.acknowledge v).bpp = s.bpp := rfl
@[simp] theorem State.acknowledge_td (v : Word) : (s.acknowledge v).td = s.td := rfl
@[simp] theorem State.acknowledge_len (v : Word) : (s.acknowledge v).len = s.len := rfl
@[simp] theorem State.acknowledge_kdiv (v : Word) : (s.acknowledge v).kdiv = s.kdiv := rfl
@[simp] theorem State.acknowledge_kn (v : Word) : (s.acknowledge v).kn = s.kn := rfl
@[simp] theorem State.acknowledge_hist (v : Word) : (s.acknowledge v).hist = s.hist := rfl
@[simp] theorem State.acknowledge_map (v : Word) : (s.acknowledge v).map = s.map := rfl
@[simp] theorem State.acknowledge_mem (v : Word) : (s.acknowledge v).mem = s.mem := rfl
@[simp] theorem State.acknowledge_inputs (v : Word) : (s.acknowledge v).inputs = s.inputs := rfl
@[simp] theorem State.acknowledge_touched (v : Word) : (s.acknowledge v).touched = s.touched := rfl
@[simp] theorem State.acknowledge_draws (v : Word) : (s.acknowledge v).draws = s.draws := rfl
@[simp] theorem State.acknowledge_regRdata (v : Word) : (s.acknowledge v).regRdata = s.regRdata := rfl
@[simp] theorem State.acknowledge_hostRdata (v : Word) : (s.acknowledge v).hostRdata = s.hostRdata := rfl

@[simp] theorem State.complete_params (b : Bool) : (s.complete b).params = s.params := rfl
@[simp] theorem State.complete_ie (b : Bool) : (s.complete b).ie = s.ie := rfl
@[simp] theorem State.complete_status (b : Bool) : (s.complete b).status = s.status.completed b := rfl
@[simp] theorem State.complete_errcode (b : Bool) : (s.complete b).errcode = s.errcode := rfl
@[simp] theorem State.complete_cmd (b : Bool) : (s.complete b).cmd = s.cmd := rfl
@[simp] theorem State.complete_src (b : Bool) : (s.complete b).src = s.src := rfl
@[simp] theorem State.complete_dst (b : Bool) : (s.complete b).dst = s.dst := rfl
@[simp] theorem State.complete_width (b : Bool) : (s.complete b).width = s.width := rfl
@[simp] theorem State.complete_height (b : Bool) : (s.complete b).height = s.height := rfl
@[simp] theorem State.complete_bpp (b : Bool) : (s.complete b).bpp = s.bpp := rfl
@[simp] theorem State.complete_td (b : Bool) : (s.complete b).td = s.td := rfl
@[simp] theorem State.complete_len (b : Bool) : (s.complete b).len = s.len := rfl
@[simp] theorem State.complete_kdiv (b : Bool) : (s.complete b).kdiv = s.kdiv := rfl
@[simp] theorem State.complete_kn (b : Bool) : (s.complete b).kn = s.kn := rfl
@[simp] theorem State.complete_hist (b : Bool) : (s.complete b).hist = s.hist := rfl
@[simp] theorem State.complete_map (b : Bool) : (s.complete b).map = s.map := rfl
@[simp] theorem State.complete_mem (b : Bool) : (s.complete b).mem = s.mem := rfl
@[simp] theorem State.complete_inputs (b : Bool) : (s.complete b).inputs = s.inputs := rfl
@[simp] theorem State.complete_touched (b : Bool) : (s.complete b).touched = s.touched := rfl
@[simp] theorem State.complete_draws (b : Bool) : (s.complete b).draws = s.draws := rfl
@[simp] theorem State.complete_regRdata (b : Bool) : (s.complete b).regRdata = s.regRdata := rfl
@[simp] theorem State.complete_hostRdata (b : Bool) : (s.complete b).hostRdata = s.hostRdata := rfl

@[simp] theorem State.apply_params (e : Effect) : (s.apply e).params = s.params := rfl
@[simp] theorem State.apply_ie (e : Effect) : (s.apply e).ie = s.ie := rfl
@[simp] theorem State.apply_status (e : Effect) : (s.apply e).status = s.status := rfl
@[simp] theorem State.apply_errcode (e : Effect) : (s.apply e).errcode = s.errcode := rfl
@[simp] theorem State.apply_cmd (e : Effect) : (s.apply e).cmd = s.cmd := rfl
@[simp] theorem State.apply_src (e : Effect) : (s.apply e).src = s.src := rfl
@[simp] theorem State.apply_dst (e : Effect) : (s.apply e).dst = s.dst := rfl
@[simp] theorem State.apply_width (e : Effect) : (s.apply e).width = s.width := rfl
@[simp] theorem State.apply_height (e : Effect) : (s.apply e).height = s.height := rfl
@[simp] theorem State.apply_bpp (e : Effect) : (s.apply e).bpp = s.bpp := rfl
@[simp] theorem State.apply_td (e : Effect) : (s.apply e).td = s.td := rfl
@[simp] theorem State.apply_len (e : Effect) : (s.apply e).len = s.len := rfl
@[simp] theorem State.apply_kdiv (e : Effect) : (s.apply e).kdiv = s.kdiv := rfl
@[simp] theorem State.apply_kn (e : Effect) : (s.apply e).kn = s.kn := rfl
@[simp] theorem State.apply_hist (e : Effect) : (s.apply e).hist = ((e.resolve s).hist).getD s.hist := rfl
@[simp] theorem State.apply_map (e : Effect) : (s.apply e).map = ((e.resolve s).map).getD s.map := rfl
@[simp] theorem State.apply_mem (e : Effect) : (s.apply e).mem = s.mem.writeAll (e.resolve s).writes := rfl
@[simp] theorem State.apply_inputs (e : Effect) : (s.apply e).inputs = s.inputs := rfl
@[simp] theorem State.apply_touched (e : Effect) : (s.apply e).touched = s.touched := rfl
@[simp] theorem State.apply_draws (e : Effect) :
    (s.apply e).draws = if e.disturbed s then s.draws + 1 else s.draws := rfl
@[simp] theorem State.apply_regRdata (e : Effect) : (s.apply e).regRdata = s.regRdata := rfl
@[simp] theorem State.apply_hostRdata (e : Effect) : (s.apply e).hostRdata = s.hostRdata := rfl

@[simp] theorem State.regRead_params (r : Reg) : (s.regRead r).params = s.params := rfl
@[simp] theorem State.regRead_ie (r : Reg) : (s.regRead r).ie = s.ie := rfl
@[simp] theorem State.regRead_status (r : Reg) : (s.regRead r).status = s.status := rfl
@[simp] theorem State.regRead_errcode (r : Reg) : (s.regRead r).errcode = s.errcode := rfl
@[simp] theorem State.regRead_cmd (r : Reg) : (s.regRead r).cmd = s.cmd := rfl
@[simp] theorem State.regRead_src (r : Reg) : (s.regRead r).src = s.src := rfl
@[simp] theorem State.regRead_dst (r : Reg) : (s.regRead r).dst = s.dst := rfl
@[simp] theorem State.regRead_width (r : Reg) : (s.regRead r).width = s.width := rfl
@[simp] theorem State.regRead_height (r : Reg) : (s.regRead r).height = s.height := rfl
@[simp] theorem State.regRead_bpp (r : Reg) : (s.regRead r).bpp = s.bpp := rfl
@[simp] theorem State.regRead_td (r : Reg) : (s.regRead r).td = s.td := rfl
@[simp] theorem State.regRead_len (r : Reg) : (s.regRead r).len = s.len := rfl
@[simp] theorem State.regRead_kdiv (r : Reg) : (s.regRead r).kdiv = s.kdiv := rfl
@[simp] theorem State.regRead_kn (r : Reg) : (s.regRead r).kn = s.kn := rfl
@[simp] theorem State.regRead_hist (r : Reg) : (s.regRead r).hist = s.hist := rfl
@[simp] theorem State.regRead_map (r : Reg) : (s.regRead r).map = s.map := rfl
@[simp] theorem State.regRead_mem (r : Reg) : (s.regRead r).mem = s.mem := rfl
@[simp] theorem State.regRead_inputs (r : Reg) : (s.regRead r).inputs = s.inputs := rfl
@[simp] theorem State.regRead_touched (r : Reg) : (s.regRead r).touched = s.touched := rfl
@[simp] theorem State.regRead_draws (r : Reg) :
    (s.regRead r).draws = if s.status.busy && r.isTable then s.draws + 1 else s.draws := rfl
@[simp] theorem State.regRead_regRdata (r : Reg) : (s.regRead r).regRdata = s.readValue r := rfl
@[simp] theorem State.regRead_hostRdata (r : Reg) : (s.regRead r).hostRdata = s.hostRdata := rfl

@[simp] theorem State.hostStore_params (a : Nat) (v : Byte) : (s.hostStore a v).params = s.params := rfl
@[simp] theorem State.hostStore_ie (a : Nat) (v : Byte) : (s.hostStore a v).ie = s.ie := rfl
@[simp] theorem State.hostStore_status (a : Nat) (v : Byte) : (s.hostStore a v).status = s.status := rfl
@[simp] theorem State.hostStore_errcode (a : Nat) (v : Byte) : (s.hostStore a v).errcode = s.errcode := rfl
@[simp] theorem State.hostStore_cmd (a : Nat) (v : Byte) : (s.hostStore a v).cmd = s.cmd := rfl
@[simp] theorem State.hostStore_src (a : Nat) (v : Byte) : (s.hostStore a v).src = s.src := rfl
@[simp] theorem State.hostStore_dst (a : Nat) (v : Byte) : (s.hostStore a v).dst = s.dst := rfl
@[simp] theorem State.hostStore_width (a : Nat) (v : Byte) : (s.hostStore a v).width = s.width := rfl
@[simp] theorem State.hostStore_height (a : Nat) (v : Byte) : (s.hostStore a v).height = s.height := rfl
@[simp] theorem State.hostStore_bpp (a : Nat) (v : Byte) : (s.hostStore a v).bpp = s.bpp := rfl
@[simp] theorem State.hostStore_td (a : Nat) (v : Byte) : (s.hostStore a v).td = s.td := rfl
@[simp] theorem State.hostStore_len (a : Nat) (v : Byte) : (s.hostStore a v).len = s.len := rfl
@[simp] theorem State.hostStore_kdiv (a : Nat) (v : Byte) : (s.hostStore a v).kdiv = s.kdiv := rfl
@[simp] theorem State.hostStore_kn (a : Nat) (v : Byte) : (s.hostStore a v).kn = s.kn := rfl
@[simp] theorem State.hostStore_hist (a : Nat) (v : Byte) : (s.hostStore a v).hist = s.hist := rfl
@[simp] theorem State.hostStore_map (a : Nat) (v : Byte) : (s.hostStore a v).map = s.map := rfl
@[simp] theorem State.hostStore_mem (a : Nat) (v : Byte) : (s.hostStore a v).mem = s.mem.write a v := rfl
@[simp] theorem State.hostStore_inputs (a : Nat) (v : Byte) : (s.hostStore a v).inputs = s.inputs := rfl
@[simp] theorem State.hostStore_touched (a : Nat) (v : Byte) :
    (s.hostStore a v).touched = if s.status.busy then (a, s.mem.read a) :: s.touched else s.touched := rfl
@[simp] theorem State.hostStore_draws (a : Nat) (v : Byte) : (s.hostStore a v).draws = s.draws := rfl
@[simp] theorem State.hostStore_regRdata (a : Nat) (v : Byte) : (s.hostStore a v).regRdata = s.regRdata := rfl
@[simp] theorem State.hostStore_hostRdata (a : Nat) (v : Byte) : (s.hostStore a v).hostRdata = s.hostRdata := rfl

@[simp] theorem State.pulseReset_params : s.pulseReset.params = s.params := rfl
@[simp] theorem State.pulseReset_ie : s.pulseReset.ie = false := rfl
@[simp] theorem State.pulseReset_status : s.pulseReset.status = ⟨false, false, false, false, false⟩ := rfl
@[simp] theorem State.pulseReset_errcode : s.pulseReset.errcode = .noError := rfl
@[simp] theorem State.pulseReset_cmd : s.pulseReset.cmd = 0#32 := rfl
@[simp] theorem State.pulseReset_src : s.pulseReset.src = 0#32 := rfl
@[simp] theorem State.pulseReset_dst : s.pulseReset.dst = 0#32 := rfl
@[simp] theorem State.pulseReset_width : s.pulseReset.width = 0#16 := rfl
@[simp] theorem State.pulseReset_height : s.pulseReset.height = 0#16 := rfl
@[simp] theorem State.pulseReset_bpp : s.pulseReset.bpp = 0#6 := rfl
@[simp] theorem State.pulseReset_td : s.pulseReset.td = false := rfl
@[simp] theorem State.pulseReset_len : s.pulseReset.len = 0#32 := rfl
@[simp] theorem State.pulseReset_kdiv : s.pulseReset.kdiv = 1#16 := rfl
@[simp] theorem State.pulseReset_kn : s.pulseReset.kn = Vector.replicate 25 0#16 := rfl
@[simp] theorem State.pulseReset_hist : s.pulseReset.hist = tabulate 256 (Config.freeWord (s.draws + 1)) := rfl
@[simp] theorem State.pulseReset_map : s.pulseReset.map = tabulate 256 (Config.freeEntry (s.draws + 1)) := rfl
@[simp] theorem State.pulseReset_mem : s.pulseReset.mem = s.memAfterReset := rfl
@[simp] theorem State.pulseReset_inputs : s.pulseReset.inputs = s.inputs := rfl
@[simp] theorem State.pulseReset_touched : s.pulseReset.touched = [] := rfl
@[simp] theorem State.pulseReset_draws : s.pulseReset.draws = s.draws + 2 := rfl
@[simp] theorem State.pulseReset_regRdata : s.pulseReset.regRdata = s.regRdata := rfl
@[simp] theorem State.pulseReset_hostRdata : s.pulseReset.hostRdata = s.hostRdata := rfl

@[simp] theorem State.hostLoad_params (a : Nat) : (s.hostLoad a).params = s.params := by
  unfold State.hostLoad; split_ifs <;> rfl
@[simp] theorem State.hostLoad_ie (a : Nat) : (s.hostLoad a).ie = s.ie := by
  unfold State.hostLoad; split_ifs <;> rfl
@[simp] theorem State.hostLoad_status (a : Nat) : (s.hostLoad a).status = s.status := by
  unfold State.hostLoad; split_ifs <;> rfl
@[simp] theorem State.hostLoad_errcode (a : Nat) : (s.hostLoad a).errcode = s.errcode := by
  unfold State.hostLoad; split_ifs <;> rfl
@[simp] theorem State.hostLoad_cmd (a : Nat) : (s.hostLoad a).cmd = s.cmd := by
  unfold State.hostLoad; split_ifs <;> rfl
@[simp] theorem State.hostLoad_src (a : Nat) : (s.hostLoad a).src = s.src := by
  unfold State.hostLoad; split_ifs <;> rfl
@[simp] theorem State.hostLoad_dst (a : Nat) : (s.hostLoad a).dst = s.dst := by
  unfold State.hostLoad; split_ifs <;> rfl
@[simp] theorem State.hostLoad_width (a : Nat) : (s.hostLoad a).width = s.width := by
  unfold State.hostLoad; split_ifs <;> rfl
@[simp] theorem State.hostLoad_height (a : Nat) : (s.hostLoad a).height = s.height := by
  unfold State.hostLoad; split_ifs <;> rfl
@[simp] theorem State.hostLoad_bpp (a : Nat) : (s.hostLoad a).bpp = s.bpp := by
  unfold State.hostLoad; split_ifs <;> rfl
@[simp] theorem State.hostLoad_td (a : Nat) : (s.hostLoad a).td = s.td := by
  unfold State.hostLoad; split_ifs <;> rfl
@[simp] theorem State.hostLoad_len (a : Nat) : (s.hostLoad a).len = s.len := by
  unfold State.hostLoad; split_ifs <;> rfl
@[simp] theorem State.hostLoad_kdiv (a : Nat) : (s.hostLoad a).kdiv = s.kdiv := by
  unfold State.hostLoad; split_ifs <;> rfl
@[simp] theorem State.hostLoad_kn (a : Nat) : (s.hostLoad a).kn = s.kn := by
  unfold State.hostLoad; split_ifs <;> rfl
@[simp] theorem State.hostLoad_hist (a : Nat) : (s.hostLoad a).hist = s.hist := by
  unfold State.hostLoad; split_ifs <;> rfl
@[simp] theorem State.hostLoad_map (a : Nat) : (s.hostLoad a).map = s.map := by
  unfold State.hostLoad; split_ifs <;> rfl
@[simp] theorem State.hostLoad_mem (a : Nat) : (s.hostLoad a).mem = s.mem := by
  unfold State.hostLoad; split_ifs <;> rfl
@[simp] theorem State.hostLoad_inputs (a : Nat) : (s.hostLoad a).inputs = s.inputs := by
  unfold State.hostLoad; split_ifs <;> rfl
@[simp] theorem State.hostLoad_touched (a : Nat) : (s.hostLoad a).touched = s.touched := by
  unfold State.hostLoad; split_ifs <;> rfl
@[simp] theorem State.hostLoad_regRdata (a : Nat) : (s.hostLoad a).regRdata = s.regRdata := by
  unfold State.hostLoad; split_ifs <;> rfl

@[simp] theorem performed_params (m : Memory) (h : HistTable) (p : MapTable) (b : Bool) :
    (performed s m h p b).params = s.params := rfl
@[simp] theorem performed_ie (m : Memory) (h : HistTable) (p : MapTable) (b : Bool) :
    (performed s m h p b).ie = s.ie := rfl
@[simp] theorem performed_status (m : Memory) (h : HistTable) (p : MapTable) (b : Bool) :
    (performed s m h p b).status = { s.status with busy := false, done := true, degen := s.status.degen || b } := rfl
@[simp] theorem performed_errcode (m : Memory) (h : HistTable) (p : MapTable) (b : Bool) :
    (performed s m h p b).errcode = s.errcode := rfl
@[simp] theorem performed_cmd (m : Memory) (h : HistTable) (p : MapTable) (b : Bool) :
    (performed s m h p b).cmd = s.cmd := rfl
@[simp] theorem performed_src (m : Memory) (h : HistTable) (p : MapTable) (b : Bool) :
    (performed s m h p b).src = s.src := rfl
@[simp] theorem performed_dst (m : Memory) (h : HistTable) (p : MapTable) (b : Bool) :
    (performed s m h p b).dst = s.dst := rfl
@[simp] theorem performed_width (m : Memory) (h : HistTable) (p : MapTable) (b : Bool) :
    (performed s m h p b).width = s.width := rfl
@[simp] theorem performed_height (m : Memory) (h : HistTable) (p : MapTable) (b : Bool) :
    (performed s m h p b).height = s.height := rfl
@[simp] theorem performed_bpp (m : Memory) (h : HistTable) (p : MapTable) (b : Bool) :
    (performed s m h p b).bpp = s.bpp := rfl
@[simp] theorem performed_td (m : Memory) (h : HistTable) (p : MapTable) (b : Bool) :
    (performed s m h p b).td = s.td := rfl
@[simp] theorem performed_len (m : Memory) (h : HistTable) (p : MapTable) (b : Bool) :
    (performed s m h p b).len = s.len := rfl
@[simp] theorem performed_kdiv (m : Memory) (h : HistTable) (p : MapTable) (b : Bool) :
    (performed s m h p b).kdiv = s.kdiv := rfl
@[simp] theorem performed_kn (m : Memory) (h : HistTable) (p : MapTable) (b : Bool) :
    (performed s m h p b).kn = s.kn := rfl
@[simp] theorem performed_hist (m : Memory) (h : HistTable) (p : MapTable) (b : Bool) :
    (performed s m h p b).hist = h := rfl
@[simp] theorem performed_map (m : Memory) (h : HistTable) (p : MapTable) (b : Bool) :
    (performed s m h p b).map = p := rfl
@[simp] theorem performed_mem (m : Memory) (h : HistTable) (p : MapTable) (b : Bool) :
    (performed s m h p b).mem = m := rfl
@[simp] theorem performed_inputs (m : Memory) (h : HistTable) (p : MapTable) (b : Bool) :
    (performed s m h p b).inputs = s.inputs := rfl
@[simp] theorem performed_touched (m : Memory) (h : HistTable) (p : MapTable) (b : Bool) :
    (performed s m h p b).touched = s.touched := rfl
@[simp] theorem performed_draws (m : Memory) (h : HistTable) (p : MapTable) (b : Bool) :
    (performed s m h p b).draws = s.draws := rfl
@[simp] theorem performed_regRdata (m : Memory) (h : HistTable) (p : MapTable) (b : Bool) :
    (performed s m h p b).regRdata = s.regRdata := rfl
@[simp] theorem performed_hostRdata (m : Memory) (h : HistTable) (p : MapTable) (b : Bool) :
    (performed s m h p b).hostRdata = s.hostRdata := rfl

@[simp] theorem failedWith_params (e : ErrCode) : (failedWith s e).params = s.params := rfl
@[simp] theorem failedWith_ie (e : ErrCode) : (failedWith s e).ie = s.ie := rfl
@[simp] theorem failedWith_status (e : ErrCode) :
    (failedWith s e).status = { s.status with busy := false, done := true, err := true } := rfl
@[simp] theorem failedWith_errcode (e : ErrCode) : (failedWith s e).errcode = e := rfl
@[simp] theorem failedWith_cmd (e : ErrCode) : (failedWith s e).cmd = s.cmd := rfl
@[simp] theorem failedWith_src (e : ErrCode) : (failedWith s e).src = s.src := rfl
@[simp] theorem failedWith_dst (e : ErrCode) : (failedWith s e).dst = s.dst := rfl
@[simp] theorem failedWith_width (e : ErrCode) : (failedWith s e).width = s.width := rfl
@[simp] theorem failedWith_height (e : ErrCode) : (failedWith s e).height = s.height := rfl
@[simp] theorem failedWith_bpp (e : ErrCode) : (failedWith s e).bpp = s.bpp := rfl
@[simp] theorem failedWith_td (e : ErrCode) : (failedWith s e).td = s.td := rfl
@[simp] theorem failedWith_len (e : ErrCode) : (failedWith s e).len = s.len := rfl
@[simp] theorem failedWith_kdiv (e : ErrCode) : (failedWith s e).kdiv = s.kdiv := rfl
@[simp] theorem failedWith_kn (e : ErrCode) : (failedWith s e).kn = s.kn := rfl
@[simp] theorem failedWith_hist (e : ErrCode) : (failedWith s e).hist = s.hist := rfl
@[simp] theorem failedWith_map (e : ErrCode) : (failedWith s e).map = s.map := rfl
@[simp] theorem failedWith_mem (e : ErrCode) : (failedWith s e).mem = s.mem := rfl
@[simp] theorem failedWith_inputs (e : ErrCode) : (failedWith s e).inputs = s.inputs := rfl
@[simp] theorem failedWith_touched (e : ErrCode) : (failedWith s e).touched = s.touched := rfl
@[simp] theorem failedWith_draws (e : ErrCode) : (failedWith s e).draws = s.draws := rfl
@[simp] theorem failedWith_regRdata (e : ErrCode) : (failedWith s e).regRdata = s.regRdata := rfl
@[simp] theorem failedWith_hostRdata (e : ErrCode) : (failedWith s e).hostRdata = s.hostRdata := rfl

@[simp] theorem Status.accepted_busy (f : Status) : (f.accepted).busy = true := rfl
@[simp] theorem Status.accepted_done (f : Status) : (f.accepted).done = false := rfl
@[simp] theorem Status.accepted_err (f : Status) : (f.accepted).err = false := rfl
@[simp] theorem Status.accepted_degen (f : Status) : (f.accepted).degen = false := rfl
@[simp] theorem Status.accepted_bwerr (f : Status) : (f.accepted).bwerr = f.bwerr := rfl

@[simp] theorem Status.failed_busy (f : Status) : (f.failed).busy = false := rfl
@[simp] theorem Status.failed_done (f : Status) : (f.failed).done = true := rfl
@[simp] theorem Status.failed_err (f : Status) : (f.failed).err = true := rfl
@[simp] theorem Status.failed_degen (f : Status) : (f.failed).degen = f.degen := rfl
@[simp] theorem Status.failed_bwerr (f : Status) : (f.failed).bwerr = f.bwerr := rfl

@[simp] theorem Status.completed_busy (f : Status) (b : Bool) : (f.completed b).busy = false := rfl
@[simp] theorem Status.completed_done (f : Status) (b : Bool) : (f.completed b).done = true := rfl
@[simp] theorem Status.completed_err (f : Status) (b : Bool) : (f.completed b).err = f.err := rfl
@[simp] theorem Status.completed_degen (f : Status) (b : Bool) : (f.completed b).degen = (f.degen || b) := rfl
@[simp] theorem Status.completed_bwerr (f : Status) (b : Bool) : (f.completed b).bwerr = f.bwerr := rfl

@[simp] theorem Status.busyWrite_busy (f : Status) : (f.busyWrite).busy = f.busy := rfl
@[simp] theorem Status.busyWrite_done (f : Status) : (f.busyWrite).done = f.done := rfl
@[simp] theorem Status.busyWrite_err (f : Status) : (f.busyWrite).err = f.err := rfl
@[simp] theorem Status.busyWrite_degen (f : Status) : (f.busyWrite).degen = f.degen := rfl
@[simp] theorem Status.busyWrite_bwerr (f : Status) : (f.busyWrite).bwerr = true := rfl

@[simp] theorem Status.writeOneToClear_busy (f : Status) (v : Word) : (f.writeOneToClear v).busy = f.busy := rfl
@[simp] theorem Status.writeOneToClear_done (f : Status) (v : Word) : (f.writeOneToClear v).done = (f.done && !v.getLsbD 1) := rfl
@[simp] theorem Status.writeOneToClear_err (f : Status) (v : Word) : (f.writeOneToClear v).err = (f.err && !v.getLsbD 2) := rfl
@[simp] theorem Status.writeOneToClear_degen (f : Status) (v : Word) : (f.writeOneToClear v).degen = (f.degen && !v.getLsbD 3) := rfl
@[simp] theorem Status.writeOneToClear_bwerr (f : Status) (v : Word) : (f.writeOneToClear v).bwerr = (f.bwerr && !v.getLsbD 4) := rfl

end Sys2Proof.Machine
end

