-- ==== Sys2Proof/Laws/Ops.lean ====
section
/-! SUPPORT. What each shared operation can do, said once: the check phase, the effect under the ownership hazard, a
command's run (44_system.md R221, R222; 70_reset_and_hazards.md R270). -/

namespace Sys2Proof.Machine

theorem firstError_eq_none_iff (cs : List Check) : firstError cs = none ↔ ∀ c ∈ cs, c.fails = false := by
  induction cs with
  | nil => simp [firstError]
  | cons c cs ih => cases h : c.fails <;> simp [firstError, h, ih]

/-- The error reported is one of a failing check, and every check before it passed (60_exceptions.md R237). -/
theorem firstError_eq_some {cs : List Check} {e : ErrCode} (h : firstError cs = some e) :
    ∃ pre c post, cs = pre ++ c :: post ∧ (∀ d ∈ pre, d.fails = false) ∧ c.fails = true ∧ c.error = e := by
  induction cs with
  | nil => simp [firstError] at h
  | cons c cs ih =>
    cases hc : c.fails
    · obtain ⟨pre, d, post, h1, h2, h3⟩ := ih (by simpa [firstError, hc] using h)
      refine ⟨c :: pre, d, post, by simp [h1], ?_, h3⟩
      intro d' hd'
      rcases List.mem_cons.mp hd' with rfl | hd'
      · exact hc
      · exact h2 d' hd'
    · exact ⟨[], c, cs, rfl, by simp, hc, by simpa [firstError, hc] using h⟩

theorem firstError_mem {cs : List Check} {e : ErrCode} (h : firstError cs = some e) : ∃ c ∈ cs, c.error = e := by
  obtain ⟨pre, c, post, rfl, _, _, he⟩ := firstError_eq_some h
  exact ⟨c, by simp, he⟩

/-- A command either fails its check phase or performs; it never stops (44_system.md R221, 20_memory.md R63). -/
theorem runCommand_cases (s : State) (cs : List Check) (e : Effect) :
    (∃ code, firstError cs = some code ∧ runCommand s cs e = .next (s.enterError code)) ∨
    (firstError cs = none ∧ runCommand s cs e = .next (s.perform e)) := by
  unfold runCommand
  cases h : firstError cs with
  | none => exact Or.inr ⟨rfl, rfl⟩
  | some code => exact Or.inl ⟨code, rfl, rfl⟩

theorem exec_eq_runCommand (i : Instr) (s : State) : exec i s = runCommand s (checksOf i s) (effectOf i s) := by
  cases i <;> rfl

/-- Inversion of exec: what a command can answer. -/
theorem exec_cases {i : Instr} {s t : State} (h : exec i s = .next t) :
    (∃ code, firstError (checksOf i s) = some code ∧ t = s.enterError code) ∨
    (checksPass i s ∧ t = s.perform (effectOf i s)) := by
  rw [exec_eq_runCommand] at h
  rcases runCommand_cases s (checksOf i s) (effectOf i s) with ⟨code, h1, h2⟩ | ⟨h1, h2⟩
  · rw [h2] at h; cases h; exact Or.inl ⟨code, h1, rfl⟩
  · rw [h2] at h; cases h; exact Or.inr ⟨(firstError_eq_none_iff _).mp h1, rfl⟩

theorem exec_of_checksPass {i : Instr} {s : State} (h : checksPass i s) :
    exec i s = .next (s.perform (effectOf i s)) := by
  rw [exec_eq_runCommand, runCommand, (firstError_eq_none_iff _).mpr h]

theorem exec_of_firstError {i : Instr} {s : State} {code : ErrCode} (h : firstError (checksOf i s) = some code) :
    exec i s = .next (s.enterError code) := by
  rw [exec_eq_runCommand, runCommand, h]

theorem enterError_eq_failedWith (s : State) (e : ErrCode) : s.enterError e = failedWith s e := rfl

/-- No check raises the code 0 (60_exceptions.md R230). -/
theorem checksOf_error_ne {i : Instr} {s : State} {c : Check} (h : c ∈ checksOf i s) : c.error ≠ .noError := by
  cases i <;>
    simp [checksOf, scanInChecks, scanOutChecks, convKChecks, presetChecks, inPlaceChecks, rgb2yuvChecks,
      yuv2rgbChecks] at h <;>
    rcases h with rfl | rfl | rfl | rfl <;>
    simp [State.checkDepth, State.checkDepth24, State.checkTrunc, State.checkKernel,
      State.checkPreset, State.checkAddr, State.checkAddr2, checkAlias]

theorem effectOf_source (i : Instr) (s : State) : (effectOf i s).source = sourceRegion i s := by cases i <;> rfl

theorem Effect.resolve_of_undisturbed {e : Effect} {s : State} (h : e.disturbed s = false) : e.resolve s = e := by
  simp only [Effect.disturbed, Bool.or_eq_false_iff] at h
  simp [Effect.resolve, h.1, h.2]

/-- Whatever the host did, a command writes the addresses its effect names and no other. -/
theorem Effect.resolve_addresses (e : Effect) (s : State) :
    (e.resolve s).writes.map Prod.fst = e.writes.map Prod.fst := by
  unfold Effect.resolve
  split_ifs
  · simp only [Effect.allFree, List.map_map]; rfl
  · simp only [Effect.hostOrEngine, List.map_map]; rfl
  · rfl

theorem Effect.resolve_mem_addr {e : Effect} {s : State} {c : Host.Cell} (h : c ∈ (e.resolve s).writes) :
    ∃ d ∈ e.writes, d.1 = c.1 := by
  have : c.1 ∈ (e.resolve s).writes.map Prod.fst := List.mem_map_of_mem h
  rw [Effect.resolve_addresses] at this
  obtain ⟨d, hd, he⟩ := List.mem_map.mp this
  exact ⟨d, hd, he⟩

/-- A command that performs for a host that kept the hazard rule ends in the state its effect names. -/
theorem State.perform_of_undisturbed {s : State} {e : Effect} (h : e.disturbed s = false) :
    s.perform e = performed s (s.mem.writeAll e.writes) (e.hist.getD s.hist) (e.map.getD s.map)
      e.fallback := by
  simp [State.perform, State.apply, Effect.resolve_of_undisturbed h, h, performed, State.complete, Status.completed]

/-- Memory after an operation: an address the effect does not name is untouched. -/
theorem State.perform_read_other {s : State} {e : Effect} (hwf : s.mem.wf = true) {a : Nat}
    (ha : ∀ c ∈ e.writes, c.1 ≠ a) : (s.perform e).mem.read a = s.mem.read a := by
  simp only [State.perform, State.complete_mem, State.apply_mem]
  refine Memory.read_writeAll_of_notMem hwf (fun c hc => ?_)
  obtain ⟨d, hd, he⟩ := Effect.resolve_mem_addr hc
  rw [← he]
  exact ha d hd

theorem State.hostWrote_iff {s : State} {a : Nat} : s.hostWrote a = true ↔ ∃ c ∈ s.touched, c.1 = a := by
  simp [State.hostWrote, List.any_eq_true]

/-- Where the host has written no byte of a region since acceptance, memory is as it was at acceptance there. -/
theorem State.memAtAcceptance_of_untouched {s : State} {r : Region} (h : ∀ c ∈ s.touched, r.contains c.1 = false) :
    s.memAtAcceptance r = s.mem := by
  rw [State.memAtAcceptance, List.filter_eq_nil_iff.mpr (by simpa using h)]
  rfl

theorem mem_rgbCells {base p : Nat} {v : Rgb} {c : Host.Cell} (h : c ∈ rgbCells base p v) :
    ∃ k < 3, c.1 = rgbAddr base p k := by
  simp only [rgbCells, List.mem_cons, List.not_mem_nil, or_false] at h
  rcases h with rfl | rfl | rfl
  · exact ⟨0, by omega, rfl⟩
  · exact ⟨1, by omega, rfl⟩
  · exact ⟨2, by omega, rfl⟩

theorem mem_wordCells {a : Nat} {v : Word} {c : Host.Cell} (h : c ∈ wordCells a v) : a ≤ c.1 ∧ c.1 < a + 4 := by
  simp only [wordCells, List.mem_cons, List.not_mem_nil, or_false] at h
  rcases h with rfl | rfl | rfl | rfl <;> simp

theorem mem_yuvCells {base p : Nat} {v : Yuv} {c : Host.Cell} (h : c ∈ yuvCells base p v) :
    yuvAddr base p ≤ c.1 ∧ c.1 < yuvAddr base p + 12 := by
  simp only [yuvCells, List.mem_append] at h
  rcases h with h | h | h <;> have := mem_wordCells h <;> omega

/-- Every byte a command writes lies in its written region (20_memory.md R63, R71). -/
theorem effectOf_writes_mem {i : Instr} {s : State} {c : Host.Cell} (h : c ∈ (effectOf i s).writes) :
    (writtenRegion i s).contains c.1 = true := by
  have conv : ∀ k, c ∈ convWrites s k → s.dstStore.contains c.1 = true := by
    intro k hc
    simp only [convWrites, List.mem_flatMap, List.mem_map, List.mem_range] at hc
    obtain ⟨y, hy, x, hx, ch, hch, rfl⟩ := hc
    rw [Region.contains_iff]
    exact State.pixelAddr_mem hx hy hch
  have remap : ∀ t, c ∈ remapWrites s t → s.srcStore.contains c.1 = true := by
    intro t hc
    simp only [remapWrites, List.mem_flatMap, List.mem_range] at hc
    obtain ⟨p, hp, hc⟩ := hc
    rw [Region.contains_iff]
    split_ifs at hc with hb
    · simp only [List.mem_singleton] at hc
      subst hc
      simp only [State.srcStore, State.storeBytes, State.bppb_eq_one hb]
      omega
    · obtain ⟨k, hk, hc⟩ := mem_rgbCells hc
      have := rgbAddr_mem (base := s.srcAddr) hp hk
      simp only [State.srcStore, State.storeBytes, State.bppb_of_ne hb]
      omega
  cases i <;> simp only [effectOf, memoryEffect, convEffect, List.not_mem_nil] at h
  case scanIn =>
    simp only [scanInWrites, List.mem_flatMap, List.mem_map, List.mem_range] at h
    obtain ⟨r, hr, x, hx, k, hk, rfl⟩ := h
    simp only [writtenRegion, Region.contains_iff]
    exact State.pixelAddr_mem hx (State.yrow_lt hr) (s.diskChannel_lt k)
  case scanOut =>
    simp only [scanOutWrites, List.mem_flatMap, List.mem_append, List.mem_map, List.mem_range] at h
    simp only [writtenRegion, Region.contains_iff]
    obtain ⟨r, hr, ⟨x, hx, k, hk, rfl⟩ | ⟨p, hp, rfl⟩⟩ := h
    · exact State.diskAddr_mem hx hr hk
    · exact State.padAddr_mem hr hp
  case rgb2yuv =>
    simp only [rgb2yuvWrites, List.mem_flatMap, List.mem_range] at h
    obtain ⟨p, hp, h⟩ := h
    have := mem_yuvCells h
    simp only [writtenRegion, Region.contains_iff, State.dstYuv, State.yuvBytes, yuvAddr] at *
    omega
  case yuv2rgb =>
    simp only [yuv2rgbWrites, List.mem_flatMap, List.mem_range] at h
    obtain ⟨p, hp, h⟩ := h
    obtain ⟨k, hk, h⟩ := mem_rgbCells h
    have := rgbAddr_mem (base := s.dstAddr) hp hk
    simp only [writtenRegion, Region.contains_iff, State.dstRgb] at *
    omega
  case remap => exact remap _ h
  case equalize => exact remap _ h
  all_goals exact conv _ h

/-- A host that keeps the ownership hazard disturbs no command (70_reset_and_hazards.md R270). -/
theorem undisturbed_of_hostKeepsOwnership {i : Instr} {s : State} (h : hostKeepsOwnership i s) :
    (effectOf i s).disturbed s = false := by
  simp only [Effect.disturbed, Bool.or_eq_false_iff]
  constructor
  · simp only [Effect.sourceTouched, List.any_eq_false, effectOf_source]
    intro c hc
    simp [(h c hc).1]
  · simp only [Effect.destTouched, List.any_eq_false]
    intro c hc hct
    obtain ⟨d, hd, he⟩ := State.hostWrote_iff.mp hct
    have := (h d hd).2
    rw [he, effectOf_writes_mem hc] at this
    cases this

/-- A command whose checks pass, for a host that keeps the ownership hazard: its one next state. -/
theorem exec_performs {i : Instr} {s : State} (hc : checksPass i s) (ho : hostKeepsOwnership i s) :
    exec i s = .next (performed s (s.mem.writeAll (effectOf i s).writes) ((effectOf i s).hist.getD s.hist)
      ((effectOf i s).map.getD s.map) (effectOf i s).fallback) := by
  rw [exec_of_checksPass hc, State.perform_of_undisturbed (undisturbed_of_hostKeepsOwnership ho)]

/-- The fallback flag of each command (42_histogram_eq.md R176). -/
theorem effectOf_fallback (i : Instr) (s : State) : (effectOf i s).fallback = (match i with
    | .eqmap => degenerate s.hist
    | .equalize => s.equalizeFallback
    | _ => false) := by cases i <;> rfl

/-- EQ's flag is the one a host that kept out would see, on the source as it was at acceptance
(70_reset_and_hazards.md R270). -/
theorem equalizeFallback_atAcceptance (s : State) :
    State.equalizeFallback { s with touched := [], mem := s.memAtAcceptance s.srcStore } = s.equalizeFallback := by
  simp only [State.equalizeFallback]; rfl

/-- EQ's flag, for a host that keeps the ownership hazard, is that of the histogram it builds (42_histogram_eq.md
R178). -/
theorem equalizeFallback_of_hostKeepsOwnership {s : State} (h : hostKeepsOwnership .equalize s) :
    s.equalizeFallback = degenerate s.histogram := by
  have hm : s.memAtAcceptance s.srcStore = s.mem := State.memAtAcceptance_of_untouched fun c hc => (h c hc).1
  rw [State.equalizeFallback, hm]

end Sys2Proof.Machine
end

