-- ==== Sys2Proof/Laws/Completion.lean ====
section
/-! SUPPORT. What a command whose checks pass leaves, for a host that keeps the ownership hazard, and what no command
can change (44_system.md R222, 10_state.md R43). -/

namespace Sys2Proof.Machine

/-- A command leaves every byte outside its written region alone. -/
theorem unchanged_of_effect (i : Instr) (s : State) (hwf : s.mem.wf = true) :
    unchangedOutside (writtenRegion i s) s (s.mem.writeAll (effectOf i s).writes) := by
  intro a ha
  refine Memory.read_writeAll_of_notMem hwf (fun c hc he => ?_)
  have := effectOf_writes_mem hc
  rw [he, ha] at this; cases this

/-- The next state of a command whose checks pass. -/
theorem performed_of_exec {i : Instr} {s t : State} (hc : checksPass i s) (ho : hostKeepsOwnership i s) (h :
    exec i s = .next t) :
  t = performed s (s.mem.writeAll (effectOf i s).writes) ((effectOf i s).hist.getD s.hist)
      ((effectOf i s).map.getD s.map) (effectOf i s).fallback := by
  rw [exec_performs hc ho] at h; cases h; rfl

theorem resolve_hist_none {e : Effect} {s : State} (h : e.hist = none) : (e.resolve s).hist = none := by
  unfold Effect.resolve; split_ifs <;> simp [Effect.allFree, Effect.hostOrEngine, h]

theorem resolve_map_none {e : Effect} {s : State} (h : e.map = none) : (e.resolve s).map = none := by
  unfold Effect.resolve; split_ifs <;> simp [Effect.allFree, Effect.hostOrEngine, h]

theorem eitherByte_cases (d a : Nat) (o n : Byte) : eitherByte d a o n = o ∨ eitherByte d a o n = n := by
  unfold eitherByte; split_ifs <;> simp

/-- A command keeps the memory canonical. -/
theorem exec_mem_wf {i : Instr} {s t : State} (h : s.mem.wf = true) (he : exec i s = .next t) : t.mem.wf = true := by
  rcases exec_cases he with ⟨code, _, rfl⟩ | ⟨_, rfl⟩
  · exact h
  · exact Memory.wf_writeAll h _

/-- Every byte of the written region exists once the checks pass (20_memory.md R72, 60_exceptions.md R235). -/
theorem written_in_range {i : Instr} {s : State} (hc : checksPass i s) {a : Nat} (ha :
    (writtenRegion i s).contains a = true) : a < s.params.memBytes := by
  have base : ∀ r : Region, s.inRange r = true → r.contains a = true → a < s.params.memBytes := by
    intro r h1 h2
    rw [Region.contains_iff] at h2
    simp [State.inRange] at h1
    omega
  cases i <;> simp [writtenRegion] at ha <;>
    simp [checksPass, checksOf, scanInChecks, scanOutChecks, convKChecks, presetChecks, inPlaceChecks,
        rgb2yuvChecks, yuv2rgbChecks, State.checkAddr2, State.checkAddr] at hc <;>
    first | exact base _ hc.2.2.1.2 ha | exact base _ hc.2.1.2 ha | exact base _ hc.2 ha

/-- The checks of a preset pass (41_convolution.md R150). -/
theorem preset_pass (n : Nat) (s : State) (hd : s.depthOk = true) (h1 : n ≤ s.w) (h2 : n ≤ s.h)
   (h3 : s.inRange s.srcStore = true) (h4 : s.inRange s.dstStore = true) (h5 :
       s.srcStore.overlaps s.dstStore = false) : ∀ c ∈ presetChecks n s, c.fails = false := by
  simp [presetChecks, State.checkDepth, State.checkPreset, State.smallerThan, State.checkAddr2, checkAlias, *]

/-- The checks of HIST, REMAP and EQ pass (42_histogram_eq.md R172). -/
theorem inPlace_pass {s : State} (hd : s.depthOk = true) (h : s.inRange s.srcStore = true) :
    ∀ c ∈ inPlaceChecks s, c.fails = false := by
  simp [inPlaceChecks, State.checkDepth, State.checkAddr, *]

theorem depth24_ne {s : State} (h : s.bpp = 24#6) : s.bpp ≠ 8#6 := by rw [h]; decide

theorem depth_ok24 {s : State} (h : s.bpp = 24#6) : s.depthOk = true := by simp [State.depthOk, h]

theorem depth_ok8 {s : State} (h : s.bpp = 8#6) : s.depthOk = true := by simp [State.depthOk, h]

end Sys2Proof.Machine
end

