-- ==== Sys2Proof/Laws/Colour.lean ====
section
/-! SUPPORT. What the writes of the colour commands leave in memory (20_memory.md R70, 43_colour.md R205, R206). -/

namespace Sys2Proof.Machine

theorem rgb_cells_read {base p p' : Nat} {v : Rgb} {k : Nat} (hk : k < 3) {c : Host.Cell}
    (hc : c ∈ rgbCells base p' v) (he : c.1 = rgbAddr base p k) :
    p' = p ∧ c.2 = (if k = 0 then v.red else if k = 1 then v.green else v.blue) := by
  simp only [rgbCells, List.mem_cons, List.not_mem_nil, or_false] at hc
  rcases hc with rfl | rfl | rfl <;> obtain ⟨rfl, rfl⟩ := rgbAddr_inj (by omega) hk he <;> simp

/-- A list of pixel writes reads back pixel by pixel. -/
theorem rgb_writeAll {m : Memory} (hwf : m.wf = true) (base n : Nat) (f : Nat → Rgb) {p : Nat} (hp : p < n) :
   (m.writeAll ((List.range n).flatMap fun q => rgbCells base q (f q))).rgb base p = f p := by
  have rd : ∀ k, k < 3 → (m.writeAll ((List.range n).flatMap fun q => rgbCells base q (f q))).read
      (rgbAddr base p k) = if k = 0 then (f p).red else if k = 1 then (f p).green else (f p).blue := by
    intro k hk
    apply Memory.read_writeAll_of_agree hwf
    · intro c hc he
      simp only [List.mem_flatMap, List.mem_range] at hc
      obtain ⟨q, hq, hc⟩ := hc
      obtain ⟨rfl, h2⟩ := rgb_cells_read hk hc he
      exact h2
    · refine ⟨(rgbAddr base p k, if k = 0 then (f p).red else if k = 1 then (f p).green else (f p).blue), ?_, rfl⟩
      simp only [List.mem_flatMap, List.mem_range]
      refine ⟨p, hp, ?_⟩
      interval_cases k <;> simp [rgbCells]
  unfold Memory.rgb
  rw [rd 0 (by omega), rd 1 (by omega), rd 2 (by omega)]
  rfl

/-- A list of record writes reads back record by record. -/
theorem yuv_word_read {m : Memory} (hwf : m.wf = true) (base n : Nat) (f : Nat → Yuv) {p : Nat} (hp : p < n) :
    (m.writeAll ((List.range n).flatMap fun q => yuvCells base q (f q))).yuv base p =
      ⟨(BitVec.ofInt 32 (f p).y5).toInt, (BitVec.ofInt 32 (f p).u5).toInt, (BitVec.ofInt 32 (f p).v5).toInt⟩ := by
  have rd : ∀ c ∈ yuvCells base p (f p), (m.writeAll ((List.range n).flatMap fun q => yuvCells base q
      (f q))).read c.1 = c.2 := by
    intro c hc
    apply Memory.read_writeAll_of_agree hwf
    · intro d hd he
      simp only [List.mem_flatMap, List.mem_range] at hd
      obtain ⟨q, hq, hd⟩ := hd
      have h1 := mem_yuvCells hd
      have h2 := mem_yuvCells hc
      rw [he] at h1
      have : q = p := by unfold yuvAddr at h1 h2; omega
      subst this
      simp only [yuvCells, wordCells, List.cons_append, List.nil_append, List.mem_cons, List.not_mem_nil,
          or_false] at hc hd
      rcases hc with rfl | rfl | rfl | rfl | rfl | rfl | rfl | rfl | rfl | rfl | rfl | rfl <;>
      rcases hd with rfl | rfl | rfl | rfl | rfl | rfl | rfl | rfl | rfl | rfl | rfl | rfl <;>
      first | rfl | (exfalso; simp at he; try omega)
    · exact ⟨c, by simp only [List.mem_flatMap, List.mem_range]; exact ⟨p, hp, hc⟩, rfl⟩
  have key : ∀ a v, (∀ c ∈ wordCells a v, c ∈ yuvCells base p (f p)) →
      (m.writeAll ((List.range n).flatMap fun q => yuvCells base q (f q))).readWord a = v := by
    intro a v h
    exact readWord_eq_of_bytes (rd _ (h (a, _) (List.mem_cons_self))) (rd _ (h (a + 1, _)
        (List.mem_cons_of_mem _ List.mem_cons_self)))
      (rd _ (h (a + 2, _) (List.mem_cons_of_mem _ (List.mem_cons_of_mem _ List.mem_cons_self))))
      (rd _ (h (a + 3, _) (List.mem_cons_of_mem _ (List.mem_cons_of_mem _
          (List.mem_cons_of_mem _ List.mem_cons_self)))))
  unfold Memory.yuv
  rw [key _ (BitVec.ofInt 32 (f p).y5) (fun c hc => List.mem_append_left _ hc),
    key _ (BitVec.ofInt 32 (f p).u5) (fun c hc => List.mem_append_right _ (List.mem_append_left _ hc)),
    key _ (BitVec.ofInt 32 (f p).v5) (fun c hc => List.mem_append_right _ (List.mem_append_right _ hc))]

theorem toInt_ofInt32 {v : Int} (h1 : -2147483648 ≤ v) (h2 : v < 2147483648) : (BitVec.ofInt 32 v).toInt = v := by
  rw [BitVec.toInt_ofInt]; simp only [Int.bmod]; split_ifs <;> omega

end Sys2Proof.Machine
end

