-- ==== Sys2Proof/Laws/Convolution.lean ====
section
/-! SUPPORT. What a convolution's writes leave in memory, and its sum as a sum over the kernel (41_convolution.md R142
to R144). -/

namespace Sys2Proof.Machine

theorem sum_range_map (n : Nat) (f : Nat → Int) : ((List.range n).map f).sum = ∑ i ∈ Finset.range n, f i := by
  induction n with
  | zero => rfl
  | succ n ih => rw [List.range_succ, List.map_append, List.sum_append, ih, Finset.sum_range_succ]; simp

/-- S(x, y, c) as a double sum. -/
theorem convSum_eq (s : State) (k : Kernel) (x y c : Nat) : s.convSum k x y c =
    ∑ a ∈ Finset.range k.size, ∑ b ∈ Finset.range k.size, k.coeff a b * s.neighbour ((x : Int) + b - (k.size / 2 :
        Nat)) ((y : Int) + a - (k.size / 2 : Nat)) c := by
  unfold State.convSum
  rw [sum_range_map]
  exact Finset.sum_congr rfl (fun a _ => sum_range_map _ _)

/-- The cells a convolution writes. -/
theorem mem_convWrites {s : State} {k : Kernel} {c : Host.Cell} : c ∈ convWrites s k ↔
    ∃ x y ch, x < s.w ∧ y < s.h ∧ ch < s.bppb ∧ c = (s.pixelAddr s.dstAddr x y ch, s.convByte k x y ch) := by
  simp only [convWrites, List.mem_flatMap, List.mem_map, List.mem_range]
  constructor
  · rintro ⟨y, hy, x, hx, ch, hc, rfl⟩; exact ⟨x, y, ch, hx, hy, hc, rfl⟩
  · rintro ⟨x, y, ch, hx, hy, hc, rfl⟩; exact ⟨y, hy, x, hx, ch, hc, rfl⟩

/-- A sample of the new store. -/
theorem conv_read {s : State} (k : Kernel) (hwf : s.mem.wf = true) {x y c : Nat} (hx : x < s.w) (hy : y < s.h) (hc :
    c < s.bppb) :
    (s.mem.writeAll (convWrites s k)).read (s.pixelAddr s.dstAddr x y c) = s.convByte k x y c := by
  apply Memory.read_writeAll_of_agree hwf
  · intro d hd he
    obtain ⟨x', y', c', hx', hy', hc', rfl⟩ := mem_convWrites.mp hd
    obtain ⟨rfl, rfl, rfl⟩ := State.pixelAddr_inj hx' hx hc' hc he
    rfl
  · exact ⟨_, mem_convWrites.mpr ⟨x, y, c, hx, hy, hc, rfl⟩, rfl⟩

theorem getD_map_toInt {n : Nat} (l : List (BitVec n)) (i : Nat) :
    (l.map BitVec.toInt).getD i 0 = (l.getD i 0).toInt := by
  rw [List.getD_eq_getElem?_getD, List.getD_eq_getElem?_getD, List.getElem?_map]
  cases l[i]? <;> simp

/-- A neighbour is a sample of eight bits. -/
theorem nb_bound (s : State) (cx cy : Int) (c : Nat) : 0 ≤ s.neighbour cx cy c ∧ s.neighbour cx cy c ≤ 255 := by
  unfold State.neighbour
  have := (s.mem.read (s.pixelAddr s.srcAddr (clamp cx 0 (s.w - 1)).toNat (clamp cy 0 (s.h - 1)).toNat c)).isLt
  omega

end Sys2Proof.Machine
end

