-- ==== Sys2Proof/Laws/Engine.lean ====
section
/-! SUPPORT. What a turn of the engine, a reset and a register write can do (44_system.md R221 to R227,
70_reset_and_hazards.md R262). -/

namespace Sys2Proof.Machine

/-- What the engine's turn can do. -/
theorem engineTurn_cases (s : State) : (s.status.busy = false ∧ engineTurn s = .next s) ∨
  (s.status.busy = true ∧ ∃ i, decode s.cmd = .ok i ∧ engineTurn s = exec i s) ∨
      (s.status.busy = true ∧ ∃ e, decode s.cmd = .error e ∧ engineTurn s = .next (s.enterError .eCmd)) := by
  unfold engineTurn
  cases hb : s.status.busy
  · left; simp
  · right; cases h : decode s.cmd with
    | ok i => left; exact ⟨rfl, i, rfl, by simp⟩
    | error e => right; exact ⟨rfl, e, rfl, by simp⟩

theorem finalMem_wf {s : State} (h : s.mem.wf = true) : s.finalMem.wf = true := by
  unfold State.finalMem
  split
  · rename_i t ht
    rcases engineTurn_cases s with ⟨_, he⟩ | ⟨_, i, _, he⟩ | ⟨_, e, _, he⟩ <;> rw [he] at ht
    · cases ht; exact h
    · exact exec_mem_wf h ht
    · cases ht; exact h
  · exact h

/-- The addresses a mixed memory lists. -/
theorem mem_mix_mem {old new : Memory} {d : Nat} {c : Host.Cell} (h : c ∈ old.mix new d) :
    (∃ v, (c.1, v) ∈ old) ∨ (∃ v, (c.1, v) ∈ new) := by
  unfold Memory.mix at h
  rcases Memory.mem_writeAll h with h | h
  · exact Or.inl ⟨c.2, h⟩
  · simp only [List.mem_map, List.mem_append] at h
    grind

/-- Each byte of a mixed memory is the old one or the new one. -/
theorem mix_read {old new : Memory} (h : old.wf = true) (d a : Nat) :
    (old.mix new d).read a = old.read a ∨ (old.mix new d).read a = new.read a := by
  unfold Memory.mix
  by_cases hm : ∃ c ∈ old ++ new, c.1 = a
  · have : (old.writeAll ((old ++ new).map fun c => (c.1, eitherByte d c.1 (old.read c.1)
      (new.read c.1)))).read a = eitherByte d a (old.read a) (new.read a) := by
      apply Memory.read_writeAll_of_agree h
      · intro c hc he
        simp only [List.mem_map] at hc
        obtain ⟨c', _, rfl⟩ := hc
        simp only at he; subst he; rfl
      · obtain ⟨c, hc, rfl⟩ := hm
        exact ⟨_, List.mem_map_of_mem hc, rfl⟩
    rw [this]
    unfold eitherByte; split_ifs <;> simp
  · left
    apply Memory.read_writeAll_of_notMem h
    intro c hc he
    simp only [List.mem_map] at hc
    obtain ⟨c', hc', rfl⟩ := hc
    exact hm ⟨c', hc', he⟩

/-- A store of the host while BUSY = 1 leaves the memory the command was accepted with as it is, over every region: what
it overwrites is recorded (44_system.md R220, 70_reset_and_hazards.md R270). -/
theorem hostStore_memAtAcceptance {s : State} (h : s.mem.wf = true) (hb : s.status.busy = true) (a : Nat) (v : Byte)
    (r : Region) {x : Nat} (hx : r.contains x = true) :
    ((s.hostStore a v).memAtAcceptance r).read x = (s.memAtAcceptance r).read x := by
  simp only [State.memAtAcceptance, State.hostStore_mem, State.hostStore_touched, hb, if_true, List.filter_cons]
  have hw := Memory.wf_write h a v
  split_ifs with hc
  · refine Memory.read_writeAll_congr (Memory.wf_write hw _ _) h ?_ _
    rw [Memory.read_write hw, Memory.read_write h]
    split_ifs with he
    · rw [he]
    · rfl
  · refine Memory.read_writeAll_congr hw h (Memory.read_write_other h v fun he => ?_) _
    rw [he] at hx
    exact hc hx

/-- A register write other than CMD starts no command. -/
theorem regWrite_busy {s : State} {r : Reg} {v : Word} (hb : s.status.busy = false) (hr : r ≠ .cmd) :
    (s.regWrite r v).status.busy = false := by
  cases r <;> simp [State.regWrite, hb, State.regWriteIdle, State.acknowledge, Status.writeOneToClear] at hr ⊢

/-- While BUSY = 0 a read returns what the register holds. -/
theorem readValue_idle {s : State} (h : s.status.busy = false) (q : Reg) : s.readValue q = s.regValue q := by
  unfold State.readValue; rw [h]

end Sys2Proof.Machine
end

