-- ==== Sys2Proof/Laws/Histogram.lean ====
section
/-! SUPPORT. The histogram, the exact cumulative sums and the lowest level (42_histogram_eq.md R172, R173), and what
REMAP's writes leave in memory (R177). -/

namespace Sys2Proof.Machine

theorem npix_lt (s : State) : s.npix < 2 ^ 32 := by
  have hw : s.w ≤ 65535 := by have := s.width.isLt; unfold State.w; omega
  have hh : s.h ≤ 65535 := by have := s.height.isLt; unfold State.h; omega
  calc s.npix ≤ 65535 * 65535 := Nat.mul_le_mul hw hh
    _ < _ := by norm_num

theorem count_range (n : Nat) (f : Nat → Nat) (v : Nat) :
    ((List.range n).map f).count v = ((Finset.range n).filter (fun p => f p = v)).card := by
  induction n with
  | zero => rfl
  | succ n ih =>
    rw [List.range_succ, List.map_append, List.count_append, ih, Finset.range_add_one, Finset.filter_insert]
    by_cases h : f n = v <;> simp [h]

/-- A bin counts its samples, and never overflows. -/
theorem hist_bin (s : State) (v : Nat) (hv : v < 256) :
    (s.histogram[v]).toNat = ((Finset.range s.npix).filter (fun p => s.sample p = v)).card := by
  have h := npix_lt s
  unfold State.histogram
  rw [tabulate_getElem, BitVec.toNat_ofNat, State.samples, count_range, Nat.mod_eq_of_lt]
  calc _ ≤ (Finset.range s.npix).card := Finset.card_filter_le _ _
    _ < _ := by rw [Finset.card_range]; exact h

theorem yidx_lt (y : Int) : yidx y < 256 := by
  unfold yidx
  have := clamp_le (v := rdiv y 100000) (lo := 0) (hi := 255) (by decide)
  have := le_clamp (v := rdiv y 100000) (lo := 0) (hi := 255) (by decide)
  omega

/-- A sample is a table index. -/
theorem sample_lt (s : State) (p : Nat) : s.sample p < 256 := by
  unfold State.sample; split_ifs
  · exact (s.mem.read _).isLt
  · exact yidx_lt _

/-- `cdf[i]` as a sum. -/
theorem cdf_eq (h : HistTable) (i : Nat) (hi : i < 256) :
    cdf h i = ∑ k ∈ Finset.range (i + 1), (h.toList.getD k 0#32).toNat := by
  unfold cdf
  have hl : h.toList.length = 256 := by simp
  induction i with
  | zero =>
    cases hh : h.toList with
    | nil => simp [hh] at hl
    | cons a l => simp
  | succ i ih =>
    rw [Finset.sum_range_succ, ← ih (by omega), List.take_add_one, List.map_append, List.sum_append]
    rw [List.getD_eq_getElem?_getD]
    cases h2 : h.toList[i+1]? <;> simp

/-- The cumulative sums do not decrease. -/
theorem cdf_mono {h : HistTable} {i j : Nat} (hj : j < 256) (hij : i ≤ j) : cdf h i ≤ cdf h j := by
  rw [cdf_eq h i (by omega), cdf_eq h j hj]
  exact Finset.sum_le_sum_of_subset (Finset.range_subset_range.mpr (by omega))

theorem lowestLevel_some {h : HistTable} {m : Nat} (hm : m < 256) (h1 : 0 < cdf h m) (h2 : ∀ k, k < m → cdf h k = 0) :
    lowestLevel h = some m := by
  unfold lowestLevel
  rw [List.find?_range_eq_some]
  refine ⟨by simpa using h1, by simpa using hm, fun j hj => by simp [h2 j hj]⟩

theorem lowestLevel_none {h : HistTable} (h2 : ∀ k, k < 256 → cdf h k = 0) : lowestLevel h = none := by
  unfold lowestLevel
  rw [List.find?_eq_none]
  intro x hx; simp [h2 x (List.mem_range.mp hx)]

/-- Either there is no sample, or there is a lowest level. -/
theorem lowest_cases (h : HistTable) : (lowestLevel h = none ∧ ∀ k, k < 256 → cdf h k = 0) ∨
   ∃ m, m < 256 ∧ lowestLevel h = some m ∧ 0 < cdf h m ∧ ∀ k, k < m → cdf h k = 0 := by
  unfold lowestLevel
  cases hf : (List.range 256).find? (fun i => decide (0 < cdf h i)) with
  | none =>
    left; refine ⟨rfl, fun k hk => ?_⟩
    rw [List.find?_eq_none] at hf
    have := hf k (List.mem_range.mpr hk); simpa using this
  | some m =>
    right
    rw [List.find?_range_eq_some] at hf
    obtain ⟨a, b, c⟩ := hf
    refine ⟨m, by simpa using b, rfl, by simpa using a, fun k hk => by simpa using c k hk⟩

theorem ofInt8_toNat {v : Int} (h1 : 0 ≤ v) (h2 : v ≤ 255) : ((BitVec.ofInt 8 v).toNat : Int) = v := by
  rw [BitVec.toNat_ofInt]; omega

/-- The remap table of a histogram that is not degenerate (42_histogram_eq.md R174 to R176). -/
theorem table_facts (h : HistTable) (hd : degenerate h = false) :
   ∃ m, m < 256 ∧ 0 < cdf h m ∧ (∀ k, k < m → cdf h k = 0) ∧ cdf h m < cdf h 255 ∧ remapTable h = tabulate 256
       (mapValue h (cdf h m)) := by
  obtain ⟨hl, _⟩ | ⟨m, hm, hl, hp, hz⟩ := lowest_cases h
  · simp [degenerate, cdfMin, hl] at hd
  · refine ⟨m, hm, hp, hz, ?_, ?_⟩
    · have h1 : cdf h m ≤ cdf h 255 := cdf_mono (by omega) (by omega)
      have : ¬ cdf h 255 = cdf h m := by simpa [degenerate, cdfMin, hl, sampleCount] using hd
      omega
    · have : ¬ cdf h 255 = cdf h m := by simpa [degenerate, cdfMin, hl, sampleCount] using hd
      simp [remapTable, cdfMin, hl, sampleCount, this]

theorem mem_remap8 {s : State} {t : MapTable} (h8 : s.bpp = 8#6) {c : Host.Cell} :
    c ∈ remapWrites s t ↔ ∃ p, p < s.npix ∧ c = (s.srcAddr + p, mapEntry t (s.mem.read (s.srcAddr + p)).toNat) := by
  simp only [remapWrites, List.mem_flatMap, List.mem_range, if_pos h8, List.mem_singleton]

/-- A byte of an 8-bit store after REMAP. -/
theorem remap8_read {s : State} {t : MapTable} (hwf : s.mem.wf = true) (h8 : s.bpp = 8#6) {p : Nat} (hp : p < s.npix) :
   (s.mem.writeAll (remapWrites s t)).read (s.srcAddr + p) = mapEntry t (s.mem.read (s.srcAddr + p)).toNat := by
  apply Memory.read_writeAll_of_agree hwf
  · intro c hc he
    obtain ⟨q, hq, rfl⟩ := (mem_remap8 h8).mp hc
    have : q = p := by simpa using he
    subst this; rfl
  · exact ⟨_, (mem_remap8 h8).mpr ⟨p, hp, rfl⟩, rfl⟩

theorem mapEntry_eq (t : MapTable) {v : Nat} (hv : v < 256) : mapEntry t v = t[v] := by
  unfold mapEntry
  rw [List.getD_eq_getElem _ _ (by simpa using hv)]; simp

end Sys2Proof.Machine
end

