-- ==== Sys2Proof/Laws/PerInstr.lean ====
section
/-! SUPPORT. A family of statements made per command: the reserved bits 31:12 of its word are 0 (30_encoding.md R90,
R91). -/

namespace Sys2Proof.Laws

/-- Bits 31:12 of a well-formed command's word are 0 (30_encoding.md R90, R91). -/
def ReservedBitsZero.Statement (i : Instr) : Prop :=
  i.wellFormed = true → (encode i).extractLsb' 12 20 = 0#20

theorem ReservedBitsZero.nop : ReservedBitsZero.Statement .nop := fun _ => rfl

theorem ReservedBitsZero.scanIn : ReservedBitsZero.Statement .scanIn := fun _ => rfl

theorem ReservedBitsZero.scanOut : ReservedBitsZero.Statement .scanOut := fun _ => rfl

theorem ReservedBitsZero.convK (n : Nat) : ReservedBitsZero.Statement (.convK n) := by
  intro h
  have hn : n < 16 := by simpa [Instr.wellFormed] using h
  interval_cases n <;> rfl

theorem ReservedBitsZero.convBox3 : ReservedBitsZero.Statement .convBox3 := fun _ => rfl

theorem ReservedBitsZero.convGauss3 : ReservedBitsZero.Statement .convGauss3 := fun _ => rfl

theorem ReservedBitsZero.convGauss5 : ReservedBitsZero.Statement .convGauss5 := fun _ => rfl

theorem ReservedBitsZero.convEdge : ReservedBitsZero.Statement .convEdge := fun _ => rfl

theorem ReservedBitsZero.convEmboss : ReservedBitsZero.Statement .convEmboss := fun _ => rfl

theorem ReservedBitsZero.convSharp : ReservedBitsZero.Statement .convSharp := fun _ => rfl

theorem ReservedBitsZero.hist : ReservedBitsZero.Statement .hist := fun _ => rfl

theorem ReservedBitsZero.eqmap : ReservedBitsZero.Statement .eqmap := fun _ => rfl

theorem ReservedBitsZero.remap : ReservedBitsZero.Statement .remap := fun _ => rfl

theorem ReservedBitsZero.equalize : ReservedBitsZero.Statement .equalize := fun _ => rfl

theorem ReservedBitsZero.rgb2yuv : ReservedBitsZero.Statement .rgb2yuv := fun _ => rfl

theorem ReservedBitsZero.yuv2rgb : ReservedBitsZero.Statement .yuv2rgb := fun _ => rfl

end Sys2Proof.Laws
end

