-- ==== Sys2Proof/Laws/Scanline.lean ====
section
/-! SUPPORT. What the scanline unit's writes leave in memory (40_scanline.md R120, R121). -/

namespace Sys2Proof.Machine

/-- The cells SCAN.IN writes. -/
theorem mem_scanInWrites {s : State} {c : Host.Cell} : c ∈ scanInWrites s ↔
    ∃ r x k, r < s.h ∧ x < s.w ∧ k < s.bppb ∧ c = (s.pixelAddr s.dstAddr x (s.yrow r) (s.diskChannel k), s.mem.read
        (s.diskAddr s.srcAddr x r k)) := by
  simp only [scanInWrites, List.mem_flatMap, List.mem_map, List.mem_range]
  constructor
  · rintro ⟨r, hr, x, hx, k, hk, rfl⟩; exact ⟨r, x, k, hr, hx, hk, rfl⟩
  · rintro ⟨r, x, k, hr, hx, hk, rfl⟩; exact ⟨r, hr, x, hx, k, hk, rfl⟩

theorem diskChannel_inj {s : State} {k k' : Nat} (h : k < s.bppb) (h' : k' < s.bppb) (e :
    s.diskChannel k = s.diskChannel k') : k = k' := by
  unfold State.diskChannel at e; omega

/-- A byte of the store after SCAN.IN. -/
theorem scanIn_read {s : State} (hwf : s.mem.wf = true) {r x k : Nat} (hr : r < s.h) (hx : x < s.w) (hk : k < s.bppb) :
    (s.mem.writeAll (scanInWrites s)).read (s.pixelAddr s.dstAddr x (s.yrow r) (s.diskChannel k)) = s.mem.read
        (s.diskAddr s.srcAddr x r k) := by
  apply Memory.read_writeAll_of_agree hwf
  · intro c hc he
    obtain ⟨r', x', k', hr', hx', hk', rfl⟩ := mem_scanInWrites.mp hc
    obtain ⟨e1, e2, e3⟩ := State.pixelAddr_inj hx' hx (s.diskChannel_lt k') (s.diskChannel_lt k) he
    have := State.yrow_inj hr' hr e2
    have := diskChannel_inj hk' hk e3
    subst_vars; rfl
  · exact ⟨_, mem_scanInWrites.mpr ⟨r, x, k, hr, hx, hk, rfl⟩, rfl⟩

/-- The cells SCAN.OUT writes. -/
theorem mem_scanOutWrites {s : State} {c : Host.Cell} : c ∈ scanOutWrites s ↔
    (∃ r x k, r < s.h ∧ x < s.w ∧ k < s.bppb ∧ c = (s.diskAddr s.dstAddr x r k, s.mem.read (s.pixelAddr s.srcAddr x
        (s.yrow r) (s.diskChannel k)))) ∨
    (∃ r p, r < s.h ∧ p < s.padb ∧ c = (s.padAddr s.dstAddr r p, 0#8)) := by
  simp only [scanOutWrites, List.mem_flatMap, List.mem_append, List.mem_map, List.mem_range]
  constructor
  · rintro ⟨r, hr, ⟨x, hx, k, hk, rfl⟩ | ⟨p, hp, rfl⟩⟩
    · exact Or.inl ⟨r, x, k, hr, hx, hk, rfl⟩
    · exact Or.inr ⟨r, p, hr, hp, rfl⟩
  · rintro (⟨r, x, k, hr, hx, hk, rfl⟩ | ⟨r, p, hr, hp, rfl⟩)
    · exact ⟨r, hr, Or.inl ⟨x, hx, k, hk, rfl⟩⟩
    · exact ⟨r, hr, Or.inr ⟨p, hp, rfl⟩⟩

/-- A pixel byte of the array after SCAN.OUT. -/
theorem scanOut_read {s : State} (hwf : s.mem.wf = true) {r x k : Nat} (hr : r < s.h) (hx : x < s.w) (hk : k < s.bppb) :
    (s.mem.writeAll (scanOutWrites s)).read (s.diskAddr s.dstAddr x r k) = s.mem.read (s.pixelAddr s.srcAddr x
        (s.yrow r) (s.diskChannel k)) := by
  apply Memory.read_writeAll_of_agree hwf
  · intro c hc he
    rcases mem_scanOutWrites.mp hc with ⟨r', x', k', hr', hx', hk', rfl⟩ | ⟨r', p, hr', hp, rfl⟩
    · obtain ⟨e1, e2, e3⟩ := State.diskAddr_inj hx' hx hk' hk he
      subst_vars; rfl
    · exact absurd he.symm (State.diskAddr_ne_padAddr hx hk hp)
  · exact ⟨_, mem_scanOutWrites.mpr (Or.inl ⟨r, x, k, hr, hx, hk, rfl⟩), rfl⟩

/-- A padding byte of the array after SCAN.OUT. -/
theorem scanOut_read_pad {s : State} (hwf : s.mem.wf = true) {r p : Nat} (hr : r < s.h) (hp : p < s.padb) :
    (s.mem.writeAll (scanOutWrites s)).read (s.padAddr s.dstAddr r p) = 0#8 := by
  apply Memory.read_writeAll_of_agree hwf
  · intro c hc he
    rcases mem_scanOutWrites.mp hc with ⟨r', x', k', hr', hx', hk', rfl⟩ | ⟨r', p, hr', hp, rfl⟩
    · exact absurd he (State.diskAddr_ne_padAddr hx' hk' hp)
    · rfl
  · exact ⟨_, mem_scanOutWrites.mpr (Or.inr ⟨r, p, hr, hp, rfl⟩), rfl⟩

end Sys2Proof.Machine
end

