-- ==== Sys2Proof/Laws/Step.lean ====
section
/-! SUPPORT. What a step does, by what is pending: a lemma per kind of input, so that no proof unfolds the step
(20_memory.md R62, 44_system.md R224 to R227, 70_reset_and_hazards.md R262). -/

namespace Sys2Proof.Machine

variable {s : State}

theorem step_of_idle_inputs (h : s.inputs = []) : step s = engineTurn s := by simp [step, stepState, h]

theorem step_of_input {e : Input} {rest : List Input} (h : s.inputs = e :: rest) :
    step s = perform e { s with inputs := rest } := by simp [step, stepState, h]

theorem perform_memRead_ok {a : Nat} (h : a < s.params.memBytes) :
    perform (.memRead a) s = .next (s.hostLoad a) := by simp [perform, State.addressOk, h]

theorem perform_memWrite_ok {a : Nat} {v : Byte} (h : a < s.params.memBytes) :
    perform (.memWrite a v) s = .next (s.hostStore a v) := by simp [perform, State.addressOk, h]

/-- An input stops the machine only if it is an access of the host to an address that does not exist
(20_memory.md R60). -/
theorem perform_fault {e : Input} {f : Fault} (h : perform e s = .fault f) :
    ∃ a, s.params.memBytes ≤ a ∧ f = .noSuchAddress a := by
  cases e with
  | memRead a =>
    by_cases ha : a < s.params.memBytes
    · rw [perform_memRead_ok ha] at h; cases h
    · exact ⟨a, by omega, by simpa [perform, State.addressOk, ha] using h.symm⟩
  | memWrite a v =>
    by_cases ha : a < s.params.memBytes
    · rw [perform_memWrite_ok ha] at h; cases h
    · exact ⟨a, by omega, by simpa [perform, State.addressOk, ha] using h.symm⟩
  | engine =>
    have h' : engineTurn s = .fault f := h
    rcases engineTurn_cases s with ⟨_, he⟩ | ⟨_, i, _, he⟩ | ⟨_, e, _, he⟩ <;> rw [he] at h'
    · cases h'
    · rw [exec_eq_runCommand] at h'
      rcases runCommand_cases s (checksOf i s) (effectOf i s) with ⟨code, _, h2⟩ | ⟨_, h2⟩ <;> rw [h2] at h' <;> cases h'
    · cases h'
  | regRead _ => cases h
  | regWrite _ _ => cases h
  | reset => cases h

end Sys2Proof.Machine
end

