-- ==== Sys2Proof/Machine/Script.lean ====
section
/-! DEFINITION. The host-script notation (30_encoding.md R100, R101): each statement as the inputs it stands for. It is
notation for what a host does; it adds nothing to the hardware. -/

namespace Sys2Proof.Machine

/-- The word index of a register's offset (10_state.md R40). A reserved register has many offsets; 0x030 stands for
them. -/
def Reg.index : Reg → BitVec 10
  | .id => 0
  | .ctrl => 1
  | .status => 2
  | .errcode => 3
  | .cmd => 4
  | .src => 5
  | .dst => 6
  | .width => 7
  | .height => 8
  | .fmt => 9
  | .len => 10
  | .kdiv => 11
  | .kn k => BitVec.ofNat 10 (16 + k)
  | .hist k => BitVec.ofNat 10 (256 + k)
  | .map k => BitVec.ofNat 10 (512 + k)
  | .reserved => 12

/-- A statement of a host script (30_encoding.md R100, R101). -/
inductive Stmt where
  /-- `wr REG, v`. -/
  | wr (r : Reg) (v : Word)
  /-- `rd REG`. -/
  | rd (r : Reg)
  /-- `cmd MNEMONIC` and `cmd CONV.K n`. -/
  | cmd (i : Instr)
  /-- `cmdw v`: a raw word. -/
  | cmdw (v : Word)
  /-- `wait`. -/
  | wait
  /-- `ack m`. -/
  | ack (m : Word)
  /-- `mb a, b0 b1 …`. A byte whose address a+k is at or above `MEM_BYTES` (2^32 included: nothing wraps) is a store to
  an address that does not exist, and stops the run there; the stop is the model's choice (log entry 11). -/
  | mb (a : Nat) (bytes : List Byte)
  /-- `expect REG = v`: test notation, no hardware action. -/
  | expectReg (r : Reg) (v : Word)
  /-- `expect mem a = b0 b1 …`: test notation, no hardware action. It fails of a byte that does not exist (the model's
  choice, log entry 11). -/
  | expectMem (a : Nat) (bytes : List Byte)
  /-- `img w, h, bpp, td`; `img w, h, bpp` is td = 0. -/
  | img (w h bpp : Word) (td : Bool)
  /-- `k3 a0 … a8 / d`, each numerator as its 16-bit two's complement. -/
  | k3 (nums : Vector Half 9) (d : Word)
  /-- `k5 a0 … a24 / d`, each numerator as its 16-bit two's complement. -/
  | k5 (nums : Vector Half 25) (d : Word)
  /-- `run MNEMONIC [n]`. -/
  | run (i : Instr)
  /-- `equalize`. -/
  | equalize
deriving DecidableEq, Repr

/-- A write of register r by the host. -/
def wrInput (r : Reg) (v : Word) : Input := .regWrite r.index v

/-- `wait`: the command completes after a finite time, and the poll that ends the loop reads STATUS with BUSY = 0
(30_encoding.md R100, 70_reset_and_hazards.md R272). -/
def waitInputs : List Input := [.engine, .regRead Reg.status.index]

/-- `mb`: the bytes at a, a+1, …, unbounded (20_memory.md R60; log entry 11). -/
def bytesInputs (a : Nat) : List Byte → List Input
  | [] => []
  | b :: bs => .memWrite a b :: bytesInputs (a + 1) bs

/-- `wr KN[k], a`, `wr KN[k+1], …`: numerators from KN[k] on. -/
def numeratorInputs (k : Nat) : List Half → List Input
  | [] => []
  | a :: as => .regWrite (BitVec.ofNat 10 (16 + k)) (a.zeroExtend 32) :: numeratorInputs (k + 1) as

/-- The inputs of a statement (30_encoding.md R100, R101). -/
def Stmt.inputs : Stmt → List Input
  | .wr r v => [wrInput r v]
  | .rd r => [.regRead r.index]
  | .cmd i => [wrInput .cmd (encode i)]
  | .cmdw v => [wrInput .cmd v]
  | .wait => waitInputs
  | .ack m => [wrInput .status m]
  | .mb a bytes => bytesInputs a bytes
  | .expectReg _ _ => []
  | .expectMem _ _ => []
  | .img w h bpp td =>
    [wrInput .width w, wrInput .height h, wrInput .fmt (if td then bpp + 256#32 else bpp)]
  | .k3 nums d => numeratorInputs 0 nums.toList ++ [wrInput .kdiv d]
  | .k5 nums d => numeratorInputs 0 nums.toList ++ [wrInput .kdiv d]
  | .run i => wrInput .cmd (encode i) :: waitInputs
  | .equalize => wrInput .cmd (encode .equalize) :: waitInputs

/-- What a statement asserts of the state at its point; only the two forms of `expect` assert anything (30_encoding.md
R100). -/
def Stmt.holdsAt (s : State) : Stmt → Bool
  | .expectReg r v => s.readValue r == v
  | .expectMem a bytes => (List.range bytes.length).all fun k =>
    s.addressOk (a + k) && s.mem.read (a + k) == bytes.getD k 0#8
  | .wr _ _ | .rd _ | .cmd _ | .cmdw _ | .wait | .ack _ | .mb _ _ | .img _ _ _ _ | .k3 _ _ | .k5 _ _ | .run _
  | .equalize => true

/-- The inputs of a whole script. -/
def scriptInputs (p : List Stmt) : List Input := p.flatMap Stmt.inputs

end Sys2Proof.Machine
end

