-- ==== Sys2Proof/Tests/Slice0.lean ====
section
/-! SUPPORT. Our own tests: words written out from the opcode map (30_encoding.md R92), one-step vectors of
95_test_vectors.md (each names its vector), and for every statement with hypotheses a witness that meets them. -/

namespace Sys2Proof.Tests

open Sys2Proof.Machine

-- Each kernel evaluation below is short; one after another they need little memory.
set_option Elab.async false

/-! ### Helpers -/

/-- Memory that holds the bytes from address a on and nothing else. -/
def image (a : Nat) (bytes : List Nat) : Memory :=
  (bytes.zipIdx a).foldl (fun m c => m.write c.2 (BitVec.ofNat 8 c.1)) []

/-- A state at acceptance: a command in flight, source at 0x1000, destination at 0x2000, and a host that has written
one byte the command does not own. -/
def ready (bpp w h : Nat) (mem : Memory) : State :=
  { State.reset with
    status := ⟨true, false, false, false, false⟩
    bpp := BitVec.ofNat 6 bpp
    width := BitVec.ofNat 16 w
    height := BitVec.ofNat 16 h
    src := 0x1000#32
    dst := 0x2000#32
    len := 1000#32
    mem := mem
    touched := [(0x9000, 0#8)] }

/-- n bytes from address a on, after a step. -/
def bytesAt (o : Host.Outcome State Fault Refusal) (a n : Nat) : List Nat :=
  match o with
  | .next t => (List.range n).map fun i => (t.mem.read (a + i)).toNat
  | _ => []

/-- STATUS and ERRCODE after a step. -/
def report (o : Host.Outcome State Fault Refusal) : Nat × Nat :=
  match o with
  | .next t => (t.status.toWord.toNat, t.errcode.code)
  | _ => (0, 0)

/-- Some entries of MAP after a step. -/
def mapAt (o : Host.Outcome State Fault Refusal) (entries : List Nat) : List Nat :=
  match o with
  | .next t => entries.map fun k => (t.map.toList.getD k 0#8).toNat
  | _ => []

/-- Some bins of HIST after a step. -/
def histAt (o : Host.Outcome State Fault Refusal) (bins : List Nat) : List Nat :=
  match o with
  | .next t => bins.map fun k => (t.hist.toList.getD k 0#32).toNat
  | _ => []

/-- Image A of 95_test_vectors.md section 3. -/
def imageA : State := ready 8 3 3 (image 0x1000 [10, 20, 30, 40, 50, 60, 70, 80, 90])

/-- Image C of 95_test_vectors.md section 3. -/
def imageC : State := ready 8 5 5 (image 0x1000 ((List.range 25).map (10 * ·)))

/-- The array of vector SC1. -/
def arraySC1 : State := ready 24 2 2 (image 0x1000 [1, 2, 3, 4, 5, 6, 0xAA, 0xBB, 7, 8, 9, 10, 11, 12, 0xCC, 0xDD])

/-- The store of vector SC2. -/
def storeSC2 : State := ready 8 3 2 (image 0x1000 [10, 20, 30, 40, 50, 60])

/-- The store of vector EQ2. -/
def storeEQ2 : State := ready 8 3 1 (image 0x1000 [5, 7, 9])

/-- The store of vector EQ16. -/
def storeEQ16 : State := ready 24 4 1 (image 0x1000 [200, 30, 30, 30, 200, 30, 30, 30, 200, 90, 90, 90])

/-- The store of vector CO3. -/
def storeCO3 : State := ready 24 2 1 (image 0x1000 [255, 0, 0, 12, 200, 99])

/-! ### Decoding: the sixteen rows of 30_encoding.md R92, written out -/

theorem test_word_nop : decode 0x00000000#32 = .ok .nop := by decide
theorem test_word_scanIn : decode 0x00000001#32 = .ok .scanIn := by decide
theorem test_word_scanOut : decode 0x00000002#32 = .ok .scanOut := by decide
theorem test_word_convK3 : decode 0x00000310#32 = .ok (.convK 3) := by decide
theorem test_word_convK15 : decode 0x00000F10#32 = .ok (.convK 15) := by decide
theorem test_word_convBox3 : decode 0x00000011#32 = .ok .convBox3 := by decide
theorem test_word_convGauss3 : decode 0x00000012#32 = .ok .convGauss3 := by decide
theorem test_word_convGauss5 : decode 0x00000013#32 = .ok .convGauss5 := by decide
theorem test_word_convEdge : decode 0x00000014#32 = .ok .convEdge := by decide
theorem test_word_convEmboss : decode 0x00000015#32 = .ok .convEmboss := by decide
theorem test_word_convSharp : decode 0x00000016#32 = .ok .convSharp := by decide
theorem test_word_hist : decode 0x00000020#32 = .ok .hist := by decide
theorem test_word_eqmap : decode 0x00000021#32 = .ok .eqmap := by decide
theorem test_word_remap : decode 0x00000022#32 = .ok .remap := by decide
theorem test_word_equalize : decode 0x00000023#32 = .ok .equalize := by decide
theorem test_word_rgb2yuv : decode 0x00000030#32 = .ok .rgb2yuv := by decide
theorem test_word_yuv2rgb : decode 0x00000031#32 = .ok .yuv2rgb := by decide

/-- Vector SY7. -/
theorem test_illegal_words :
    [0x3, 0xF, 0x17, 0x24, 0x32, 0xFF, 0x100, 0x80000001, 0x10023, 0x323, 0x3310, 0xFFFFFFFF].all
      (fun w => (decodeTableWord 32 w).isNone) = true := by decide

/-! ### Well-formedness -/

/-- The field n is four bits wide (30_encoding.md R91). -/
theorem test_convK16_illFormed : Instr.wellFormed (.convK 16) = false := by decide
theorem test_convK15_wellFormed : Instr.wellFormed (.convK 15) = true := by decide

/-! ### One step of each command -/

/-- Vector SY3. -/
theorem test_nop : report (step (State.reset.withFetchWord 32 0x00000000)) = (0x02, 0) := by decide +kernel

/-- Vector SC1, bottom-up. -/
theorem test_scanIn_bottomUp :
    bytesAt (exec .scanIn arraySC1) 0x2000 12 = [9, 8, 7, 12, 11, 10, 3, 2, 1, 6, 5, 4] := by decide +kernel

/-- Vector SC6. -/
theorem test_scanIn_truncated : report (exec .scanIn { arraySC1 with len := 15#32 }) = (0x06, 4) := by decide +kernel

/-- Vector SC2, bottom-up. -/
theorem test_scanOut_bottomUp :
    bytesAt (exec .scanOut storeSC2) 0x2000 8 = [40, 50, 60, 0, 10, 20, 30, 0] := by decide +kernel

/-- Vector SC2, top-down. -/
theorem test_scanOut_topDown :
    bytesAt (exec .scanOut { storeSC2 with td := true }) 0x2000 8 = [10, 20, 30, 0, 40, 50, 60, 0] := by decide +kernel

/-- Vector CV14 (a): the kernel is not flipped. -/
theorem test_convK_shift :
    bytesAt (exec (.convK 3) { imageA with kn := (Vector.replicate 25 0#16).set 2 1#16 }) 0x2000 9 =
      [20, 30, 30, 20, 30, 30, 50, 60, 60] := by decide +kernel

/-- Vector CV17, an even size. -/
theorem test_convK_even : report (exec (.convK 4) (ready 8 8 8 [])) = (0x06, 3) := by decide +kernel

/-- Vector CV1. -/
theorem test_convBox3 : bytesAt (exec .convBox3 imageA) 0x2000 9 = [23, 30, 36, 43, 50, 56, 63, 70, 76] := by
  decide +kernel

/-- Vector CV3. -/
theorem test_convGauss3 : bytesAt (exec .convGauss3 imageA) 0x2000 9 = [20, 27, 35, 42, 50, 57, 65, 72, 80] := by
  decide +kernel

/-- Vector CV11. -/
theorem test_convGauss5 :
    bytesAt (exec .convGauss5 imageC) 0x2000 25 =
      [22, 29, 38, 48, 55, 56, 63, 73, 82, 89, 103, 110, 120, 129, 136, 150, 157, 166, 176, 183, 185, 191, 201, 210,
        217] := by decide +kernel

/-- Vector CV5. -/
theorem test_convEdge : bytesAt (exec .convEdge imageA) 0x2000 9 = [0, 0, 0, 0, 0, 30, 60, 90, 120] := by
  decide +kernel

/-- Vector CV9. -/
theorem test_convEmboss : bytesAt (exec .convEmboss imageA) 0x2000 9 = [130, 170, 150, 250, 255, 255, 190, 230, 210] :=
  by decide +kernel

/-- Vector CV7. -/
theorem test_convSharp : bytesAt (exec .convSharp imageA) 0x2000 9 = [0, 0, 10, 30, 50, 70, 90, 110, 130] := by
  decide +kernel

/-- Vector EQ15: the old content of HIST does not stay. -/
theorem test_hist :
    histAt (exec .hist { ready 8 2 2 (image 0x1000 [10, 10, 200, 200]) with hist := Vector.replicate 256 7#32 })
      [0, 10, 200, 255] = [0, 2, 2, 0] := by decide +kernel

/-- Vector EQ12. -/
theorem test_eqmap :
    mapAt (exec .eqmap { ready 0 0 0 [] with
      hist := (((Vector.replicate 256 0#32).set 0 1#32).set 128 2#32).set 255 1#32 }) [0, 127, 128, 254, 255] =
      [0, 0, 170, 170, 255] := by decide +kernel

/-- Vector EQ14. -/
theorem test_remap_gray :
    bytesAt (exec .remap { ready 8 4 1 (image 0x1000 [0, 1, 100, 255]) with
      map := tabulate 256 fun i => BitVec.ofNat 8 (255 - i) }) 0x1000 4 = [255, 254, 155, 0] := by decide +kernel

/-- Vector EQ19: the identity table is not the identity on 24-bit pixels. -/
theorem test_remap_colour :
    bytesAt (exec .remap { ready 24 3 1 (image 0x1000 [0, 0, 250, 0, 4, 168, 0, 1, 201]) with
      map := tabulate 256 (BitVec.ofNat 8) }) 0x1000 9 = [1, 0, 250, 1, 4, 169, 1, 1, 201] := by decide +kernel

/-- Vector EQ2: a rounding tie. -/
theorem test_equalize_gray : bytesAt (exec .equalize storeEQ2) 0x1000 3 = [0, 128, 255] := by decide +kernel

/-- Vector EQ16. -/
theorem test_equalize_colour :
    bytesAt (exec .equalize storeEQ16) 0x1000 12 = [204, 34, 34, 155, 255, 155, 0, 0, 151, 170, 170, 170] := by
  decide +kernel

/-- Vector CO3. -/
theorem test_rgb2yuv :
    bytesAt (exec .rgb2yuv storeCO3) 0x2000 24 =
      [0x34, 0x57, 0x74, 0x00, 0x79, 0xC0, 0xC6, 0xFF, 0xC4, 0x4B, 0xEF, 0x00,
        0x88, 0xD5, 0xC9, 0x00, 0x14, 0x04, 0xE7, 0xFF, 0xA5, 0xFD, 0x5E, 0xFF] := by decide +kernel

/-- Vector CO2, its last row: the extreme words. -/
theorem test_yuv2rgb :
    bytesAt (exec .yuv2rgb (ready 24 1 1
      (image 0x1000 [0, 0, 0, 0, 0xFF, 0xFF, 0xFF, 0x7F, 0, 0, 0, 0x80]))) 0x2000 3 = [0, 255, 255] := by
  decide +kernel

/-! ### The host's side -/

/-- Vector SY6: a write of SRC while BUSY = 1 is dropped. -/
theorem test_busy_write_dropped :
    (imageA.regWrite .src 0x5000#32).src = 0x1000#32 ∧ (imageA.regWrite .src 0x5000#32).status.bwerr = true := by
  decide +kernel

/-- Vector SY2: FMT keeps bits 5:0 and bit 8. -/
theorem test_fmt_reads_masked :
    ((State.reset.regWrite .fmt 0xFFFFFFFF#32).readValue .fmt = 0x13F#32) ∧
      ((State.reset.regWrite .fmt 0x218#32).readValue .fmt = 0x18#32) := by decide +kernel

/-- Vector SY2: KN reads sign-extended. -/
theorem test_kn_reads_signed : (State.reset.regWrite (.kn 1) 0x8000#32).readValue (.kn 1) = 0xFFFF8000#32 := by
  decide +kernel

/-- Vector SY4: BUSY is not cleared by a write, a set bit is cleared by a one only. -/
theorem test_w1c :
    (Status.writeOneToClear ⟨false, true, false, true, false⟩ 0x08#32).toWord = 0x02#32 ∧
      (Status.writeOneToClear ⟨true, false, false, false, false⟩ 0x01#32).toWord = 0x01#32 := by decide +kernel

/-- A store of three equal pixels at acceptance, the last of which the host overwrote while EQ ran, twice. -/
def spoiltEQ : State :=
  { storeEQ2 with mem := image 0x1000 [5, 5, 9], touched := [(0x1002, 8#8), (0x1002, 5#8), (0x9000, 0#8)] }

/-- 70_reset_and_hazards.md R270: DONE and DEGEN come of the store at acceptance; the host's writes do not reach
STATUS. -/
theorem test_equalize_spoilt_flags : report (exec .equalize spoiltEQ) = (0x0A, 0) := by decide +kernel

/-- 20_memory.md R60: `mb` at the top of the address space does not wrap. -/
theorem test_mb_no_wrap :
    Stmt.inputs (.mb 0xFFFFFFFF [1#8, 2#8]) = [.memWrite 0xFFFFFFFF 1#8, .memWrite 0x100000000 2#8] := by
  decide +kernel

/-- The statements of a script as inputs (30_encoding.md R100): `wr SRC, 0x1000`, `run NOP`. -/
theorem test_script :
    scriptInputs [.wr .src 0x1000#32, .run .nop] =
      [.regWrite 5#10 0x1000#32, .regWrite 4#10 0#32, .engine, .regRead 2#10] := by decide +kernel

/-- Vector SY1: `expect` of two registers after reset. -/
theorem test_expect :
    Stmt.holdsAt State.reset (.expectReg .id 0x49504501#32) = true ∧
      Stmt.holdsAt State.reset (.expectReg .kdiv 0#32) = false := by decide +kernel

/-! ### Witnesses: for each statement with hypotheses, a concrete case that meets them -/

/-- The checks of a command pass on a concrete state. -/
def passes (i : Instr) (s : State) : Bool := (checksOf i s).all fun c => !c.fails

theorem checksPass_of_passes {i : Instr} {s : State} (h : passes i s = true) : checksPass i s := by
  simpa [passes, checksPass] using h

/-- The host keeps the ownership hazard on a concrete state. -/
def keeps (i : Instr) (s : State) : Bool :=
  s.touched.all fun c => !(sourceRegion i s).contains c.1 && !(writtenRegion i s).contains c.1

theorem hostKeeps_of_keeps {i : Instr} {s : State} (h : keeps i s = true) : hostKeepsOwnership i s := by
  simpa [keeps, hostKeepsOwnership] using h

theorem exec_of_passes {i : Instr} {s : State} (h : passes i s = true) :
    exec i s = .next (s.perform (effectOf i s)) := exec_of_checksPass (checksPass_of_passes h)

theorem witness_DecodeOfEncodeIsTheCommand :
    Instr.wellFormed (.convK 0) = true ∧ Instr.wellFormed (.convK 15) = true := by decide

theorem witness_EncodeOfDecodeIsTheWord : decode 0x00000F10#32 = .ok (.convK 15) := by decide

/-- One word for each premise of the decoding procedure, at the edges of the fields. -/
theorem witness_DecodingProcedure :
    ((0x00001010#32).extractLsb' 0 8 = 0x10#8 ∧ (0x00001010#32).extractLsb' 12 20 ≠ 0#20) ∧
    ((0x00000F10#32).extractLsb' 0 8 = 0x10#8 ∧ (0x00000F10#32).extractLsb' 12 20 = 0#20) ∧
    ((0x80000031#32).extractLsb' 0 8 = 0x31#8 ∧ (0x80000031#32).extractLsb' 8 24 ≠ 0#24) ∧
    ((0x00000031#32).extractLsb' 0 8 = 0x31#8 ∧ (0x00000031#32).extractLsb' 8 24 = 0#24) ∧
    (0x000000FF#32).extractLsb' 0 8 ∉ [0x00#8, 0x01#8, 0x02#8, 0x10#8, 0x11#8, 0x12#8, 0x13#8, 0x14#8, 0x15#8, 0x16#8,
      0x20#8, 0x21#8, 0x22#8, 0x23#8, 0x30#8, 0x31#8] := by decide

theorem witness_StepRunsTheDecodedCommand :
    (({ imageA with cmd := 0x310#32 } : State).status.busy = true ∧
      decode ({ imageA with cmd := 0x310#32 } : State).cmd = .ok (.convK 3) ∧
      Instr.wellFormed (.convK 3) = true ∧ ({ imageA with cmd := 0x310#32 } : State).inputs = []) ∧
    ({ imageA with cmd := 0x310#32, inputs := [.engine, .reset] } : State).inputs = .engine :: [.reset] ∧
    decode 0x00000023#32 = .ok .equalize := by decide +kernel

theorem witness_IllegalWordFailsWithECmd :
    ({ imageA with cmd := 0x3#32 } : State).status.busy = true ∧ ({ imageA with cmd := 0x3#32 } : State).inputs = [] ∧
      decode ({ imageA with cmd := 0x3#32 } : State).cmd = .error .unassignedOpcode ∧
      ({ imageA with cmd := 0x3#32, inputs := waitInputs } : State).inputs = .engine :: [.regRead 2#10] := by
  decide +kernel

theorem witness_EngineTurnAlwaysCompletes :
    (imageA.inputs = [] ∧ imageA.status.busy = true) ∧
      (State.reset.inputs = [] ∧ State.reset.status.busy = false) ∧
      ({ imageA with inputs := [.engine, .reset] } : State).inputs = .engine :: [.reset] := by decide +kernel

theorem witness_AcceptThenTurnIsTheCommand :
    ({ State.reset with inputs := [.regWrite 4#10 0x23#32, .engine, .reset] } : State).status.busy = false ∧
      decode 0x23#32 = .ok .equalize ∧
      ({ State.reset with inputs := [.regWrite 4#10 0x23#32, .engine, .reset] } : State).inputs =
        .regWrite 4#10 0x23#32 :: .engine :: [.reset] := by decide +kernel

theorem reset_inv : State.reset.Inv :=
  ⟨rfl, (fun c hc => by cases hc), ⟨(fun h => by cases h), (fun h => by cases h), (fun h => by cases h)⟩, by decide⟩

theorem witness_StepKeepsTheInvariant :
    ({ State.reset with inputs := [.memWrite 0xFFFFF 1#8] } : State).Inv ∧
      ∃ t, step { State.reset with inputs := [.memWrite 0xFFFFF 1#8] } = .next t :=
  ⟨⟨rfl, (fun c hc => by cases hc), reset_inv.flags, reset_inv.embossDiv⟩, _, rfl⟩

theorem witness_ResetRegisters : Reg.isTable (.kn 24) = false := rfl

theorem witness_ScanInStoresTheImage :
    arraySC1.mem.wf = true ∧ arraySC1.depthOk = true ∧ arraySC1.diskBytes ≤ arraySC1.len.toNat ∧
      arraySC1.inRange arraySC1.srcDisk = true ∧ arraySC1.inRange arraySC1.dstStore = true ∧
      arraySC1.srcDisk.overlaps arraySC1.dstStore = false ∧ hostKeepsOwnership .scanIn arraySC1 ∧
      1 < arraySC1.h ∧ 1 < arraySC1.w ∧ 2 < arraySC1.bppb :=
  ⟨by decide +kernel, by decide +kernel, by decide +kernel, by decide +kernel, by decide +kernel, by decide +kernel,
    hostKeeps_of_keeps (by decide +kernel), by decide +kernel, by decide +kernel, by decide +kernel⟩

theorem witness_ScanOutWritesTheArray :
    storeSC2.mem.wf = true ∧ storeSC2.depthOk = true ∧ storeSC2.inRange storeSC2.srcStore = true ∧
      storeSC2.inRange storeSC2.dstDisk = true ∧ storeSC2.srcStore.overlaps storeSC2.dstDisk = false ∧
      hostKeepsOwnership .scanOut storeSC2 ∧ 1 < storeSC2.h ∧ 2 < storeSC2.w ∧ 0 < storeSC2.bppb ∧
      0 < storeSC2.padb :=
  ⟨by decide +kernel, by decide +kernel, by decide +kernel, by decide +kernel, by decide +kernel,
    hostKeeps_of_keeps (by decide +kernel), by decide +kernel, by decide +kernel, by decide +kernel, by decide +kernel⟩

theorem witness_ScanOutThenScanInReturnsTheStore :
    ∃ t u : State, storeSC2.mem.wf = true ∧ checksPass .scanOut storeSC2 ∧ hostKeepsOwnership .scanOut storeSC2 ∧
      exec .scanOut storeSC2 = .next t ∧
      checksPass .scanIn { t with src := storeSC2.dst, dst := 0x3000#32, len := 8#32 } ∧
      hostKeepsOwnership .scanIn { t with src := storeSC2.dst, dst := 0x3000#32, len := 8#32 } ∧
      exec .scanIn { t with src := storeSC2.dst, dst := 0x3000#32, len := 8#32 } = .next u ∧ 5 < storeSC2.storeBytes :=
  ⟨_, _, by decide +kernel, checksPass_of_passes (by decide +kernel), hostKeeps_of_keeps (by decide +kernel),
    exec_of_passes (by decide +kernel), checksPass_of_passes (by decide +kernel),
    hostKeeps_of_keeps (by decide +kernel), exec_of_passes (by decide +kernel), by decide +kernel⟩

theorem witness_ScanInThenScanOutReturnsTheArray :
    ∃ t u : State, arraySC1.mem.wf = true ∧ checksPass .scanIn arraySC1 ∧ hostKeepsOwnership .scanIn arraySC1 ∧
      exec .scanIn arraySC1 = .next t ∧
      checksPass .scanOut { t with src := arraySC1.dst, dst := 0x3000#32 } ∧
      hostKeepsOwnership .scanOut { t with src := arraySC1.dst, dst := 0x3000#32 } ∧
      exec .scanOut { t with src := arraySC1.dst, dst := 0x3000#32 } = .next u ∧ 0 < arraySC1.padb :=
  ⟨_, _, by decide +kernel, checksPass_of_passes (by decide +kernel), hostKeeps_of_keeps (by decide +kernel),
    exec_of_passes (by decide +kernel), checksPass_of_passes (by decide +kernel),
    hostKeeps_of_keeps (by decide +kernel), exec_of_passes (by decide +kernel), by decide +kernel⟩

theorem witness_PaddingArithmetic :
    (imageA.depthOk = true ∧ imageA.bpp = 8#6) ∧ (arraySC1.depthOk = true ∧ arraySC1.bpp = 24#6) := by decide +kernel

/-- What the seven convolution statements ask of a state, for a command of size n. -/
def ConvPremises (i : Instr) (n : Nat) (s : State) : Prop :=
  s.mem.wf = true ∧ s.depthOk = true ∧ n ≤ s.w ∧ n ≤ s.h ∧ s.inRange s.srcStore = true ∧ s.inRange s.dstStore = true ∧
    s.srcStore.overlaps s.dstStore = false ∧ hostKeepsOwnership i s

theorem imageA_premises {i : Instr} (h : keeps i imageA = true) : ConvPremises i 3 imageA :=
  ⟨by decide +kernel, by decide +kernel, by decide +kernel, by decide +kernel, by decide +kernel, by decide +kernel,
    by decide +kernel, hostKeeps_of_keeps h⟩

theorem imageC_premises {i : Instr} (h : keeps i imageC = true) : ConvPremises i 5 imageC :=
  ⟨by decide +kernel, by decide +kernel, by decide +kernel, by decide +kernel, by decide +kernel, by decide +kernel,
    by decide +kernel, hostKeeps_of_keeps h⟩

theorem witness_ConvKUsesTheUserKernel :
    (ConvPremises (.convK 3) 3 imageA ∧ imageA.kdiv ≠ 0#16) ∧ (ConvPremises (.convK 5) 5 imageC ∧ imageC.kdiv ≠ 0#16) :=
  ⟨⟨imageA_premises (by decide +kernel), by decide +kernel⟩, imageC_premises (by decide +kernel), by decide +kernel⟩

theorem witness_ConvBox3IsTheBoxBlur : ConvPremises .convBox3 3 imageA := imageA_premises (by decide +kernel)
theorem witness_ConvGauss3IsTheGaussianBlur : ConvPremises .convGauss3 3 imageA := imageA_premises (by decide +kernel)
theorem witness_ConvGauss5IsTheBinomialBlur : ConvPremises .convGauss5 5 imageC := imageC_premises (by decide +kernel)
theorem witness_ConvEdgeIsTheLaplacian : ConvPremises .convEdge 3 imageA := imageA_premises (by decide +kernel)
theorem witness_ConvEmbossUsesTheParameterKernel : ConvPremises .convEmboss 3 imageA :=
  imageA_premises (by decide +kernel)
theorem witness_ConvSharpIsTheSharpenKernel : ConvPremises .convSharp 3 imageA := imageA_premises (by decide +kernel)

/-- One pair of coordinates at each edge of the image. -/
theorem witness_NeighbourClampsToTheEdge :
    (1 ≤ imageA.w ∧ 1 ≤ imageA.h) ∧ 2 < imageA.w ∧ (-1 : Int) < 0 ∧ (imageA.w : Int) - 1 < 3 ∧
      (imageA.h : Int) - 1 < 3 := by decide +kernel

theorem witness_ConvSumFitsThirtyTwoBits : (3 = 3 ∨ 3 = 5) ∧ (5 = 3 ∨ 5 = 5) := by decide

/-- Image A with the identity kernel of size 3. -/
def identityA : State := { imageA with kn := (Vector.replicate 25 0#16).set 4 1#16 }

theorem witness_IdentityKernelCopiesTheStore :
    ∃ t, identityA.mem.wf = true ∧ checksPass (.convK 3) identityA ∧ hostKeepsOwnership (.convK 3) identityA ∧
      identityA.kdiv = 1#16 ∧
      (∀ k, k < 3 * 3 → identityA.kn.toList.getD k 0#16 = if k = 3 * 3 / 2 then 1#16 else 0#16) ∧
      exec (.convK 3) identityA = .next t ∧ 8 < identityA.storeBytes :=
  ⟨_, by decide +kernel, checksPass_of_passes (by decide +kernel), hostKeeps_of_keeps (by decide +kernel),
    by decide +kernel, by decide +kernel, exec_of_passes (by decide +kernel), by decide +kernel⟩

/-- A constant image of value 7. -/
def flat7 : State := ready 8 2 2 (image 0x1000 [7, 7, 7, 7])

theorem witness_ConstantImageStaysConstant :
    1 ≤ flat7.w ∧ 1 ≤ flat7.h ∧
      ∀ x < 2, ∀ y < 2, x < flat7.w ∧ y < flat7.h ∧ flat7.mem.read (flat7.pixelAddr flat7.srcAddr x y 0) = 7#8 := by
  decide +kernel

theorem witness_ScalingTheKernelChangesNothing : 0 < 2 ∧ 0 < gauss3.div := by decide

theorem witness_HistCountsTheSamples :
    (storeEQ2.depthOk = true ∧ storeEQ2.inRange storeEQ2.srcStore = true ∧ hostKeepsOwnership .hist storeEQ2 ∧
      storeEQ2.bpp = 8#6) ∧
    (storeEQ16.depthOk = true ∧ storeEQ16.inRange storeEQ16.srcStore = true ∧ hostKeepsOwnership .hist storeEQ16 ∧
      storeEQ16.bpp = 24#6) :=
  ⟨⟨by decide +kernel, by decide +kernel, hostKeeps_of_keeps (by decide +kernel), by decide +kernel⟩,
    by decide +kernel, by decide +kernel, hostKeeps_of_keeps (by decide +kernel), by decide +kernel⟩

theorem witness_HistBinsSumToThePixels :
    ∃ t, checksPass .hist storeEQ2 ∧ hostKeepsOwnership .hist storeEQ2 ∧ exec .hist storeEQ2 = .next t :=
  ⟨_, checksPass_of_passes (by decide +kernel), hostKeeps_of_keeps (by decide +kernel),
    exec_of_passes (by decide +kernel)⟩

/-- HIST with one sample at 5 and one at 7. -/
def twoLevels : HistTable := ((Vector.replicate 256 0#32).set 5 1#32).set 7 1#32

/-- An empty table, a table with one occupied bin (the highest), and one with two, each meeting its clause. -/
theorem witness_EqmapComputesTheRemapTable :
    cdf (Vector.replicate 256 0#32) 255 = 0 ∧
    (cdf ((Vector.replicate 256 0#32).set 255 3#32) 255 = 3 ∧
      ∀ k < 255, cdf ((Vector.replicate 256 0#32).set 255 3#32) k = 0) ∧
    (0 < cdf twoLevels 5 ∧ cdf twoLevels 5 ≠ cdf twoLevels 255 ∧ ∀ k < 5, cdf twoLevels k = 0) := by decide +kernel

/-- The state before an EQMAP of `twoLevels`. -/
def eqmapTwo : State := { ready 0 0 0 [] with hist := twoLevels }

theorem witness_RemapTableIsMonotone :
    eqmapTwo.status.degen = false ∧ exec .eqmap eqmapTwo = .next (eqmapTwo.perform (effectOf .eqmap eqmapTwo)) ∧
      (eqmapTwo.perform (effectOf .eqmap eqmapTwo)).status.degen = false ∧
      (∀ k < 5, eqmapTwo.hist.toList.getD k 0#32 = 0#32) ∧
      (∀ k < 256, 7 < k → eqmapTwo.hist.toList.getD k 0#32 = 0#32) :=
  ⟨by decide +kernel, exec_of_passes (by decide +kernel), by decide +kernel, by decide +kernel, by decide +kernel⟩

theorem witness_RemapLooksUpEachGrayPixel :
    storeEQ2.mem.wf = true ∧ storeEQ2.bpp = 8#6 ∧ storeEQ2.inRange storeEQ2.srcStore = true ∧
      hostKeepsOwnership .remap storeEQ2 :=
  ⟨by decide +kernel, by decide +kernel, by decide +kernel, hostKeeps_of_keeps (by decide +kernel)⟩

theorem witness_RemapReplacesTheLuminance :
    storeEQ16.mem.wf = true ∧ storeEQ16.bpp = 24#6 ∧ storeEQ16.inRange storeEQ16.srcStore = true ∧
      hostKeepsOwnership .remap storeEQ16 :=
  ⟨by decide +kernel, by decide +kernel, by decide +kernel, hostKeeps_of_keeps (by decide +kernel)⟩

theorem witness_EqIsHistThenEqmapThenRemap :
    storeEQ16.status.degen = false ∧ storeEQ16.depthOk = true ∧ storeEQ16.inRange storeEQ16.srcStore = true ∧
      hostKeepsOwnership .equalize storeEQ16 :=
  ⟨by decide +kernel, by decide +kernel, by decide +kernel, hostKeeps_of_keeps (by decide +kernel)⟩

theorem witness_EqKeepsOrderAndSpansTheRange :
    storeEQ2.mem.wf = true ∧ storeEQ2.bpp = 8#6 ∧ checksPass .equalize storeEQ2 ∧
      hostKeepsOwnership .equalize storeEQ2 ∧ storeEQ2.status.degen = false ∧
      exec .equalize storeEQ2 = .next (storeEQ2.perform (effectOf .equalize storeEQ2)) ∧
      (storeEQ2.perform (effectOf .equalize storeEQ2)).status.degen = false ∧ 2 < storeEQ2.npix ∧
      (∀ q < 3, (storeEQ2.mem.read (storeEQ2.srcAddr + 0)).toNat ≤ (storeEQ2.mem.read (storeEQ2.srcAddr + q)).toNat) ∧
      ∀ q < 3, (storeEQ2.mem.read (storeEQ2.srcAddr + q)).toNat ≤ (storeEQ2.mem.read (storeEQ2.srcAddr + 2)).toNat :=
  ⟨by decide +kernel, by decide +kernel, checksPass_of_passes (by decide +kernel),
    hostKeeps_of_keeps (by decide +kernel), by decide +kernel, exec_of_passes (by decide +kernel), by decide +kernel,
    by decide +kernel, by decide +kernel, by decide +kernel⟩

theorem witness_Rgb2yuvWritesTheRecords :
    storeCO3.mem.wf = true ∧ storeCO3.bpp = 24#6 ∧ storeCO3.inRange storeCO3.srcRgb = true ∧
      storeCO3.inRange storeCO3.dstYuv = true ∧ storeCO3.srcRgb.overlaps storeCO3.dstYuv = false ∧
      hostKeepsOwnership .rgb2yuv storeCO3 ∧ 1 < storeCO3.npix :=
  ⟨by decide +kernel, by decide +kernel, by decide +kernel, by decide +kernel, by decide +kernel,
    hostKeeps_of_keeps (by decide +kernel), by decide +kernel⟩

theorem witness_Yuv2rgbWritesThePixels :
    storeCO3.mem.wf = true ∧ storeCO3.bpp = 24#6 ∧ storeCO3.inRange storeCO3.srcYuv = true ∧
      storeCO3.inRange storeCO3.dstRgb = true ∧ storeCO3.srcYuv.overlaps storeCO3.dstRgb = false ∧
      hostKeepsOwnership .yuv2rgb storeCO3 ∧ 1 < storeCO3.npix :=
  ⟨by decide +kernel, by decide +kernel, by decide +kernel, by decide +kernel, by decide +kernel,
    hostKeeps_of_keeps (by decide +kernel), by decide +kernel⟩

theorem witness_ColourRoundTripReturnsTheStore :
    ∃ t u : State, storeCO3.mem.wf = true ∧ checksPass .rgb2yuv storeCO3 ∧ hostKeepsOwnership .rgb2yuv storeCO3 ∧
      exec .rgb2yuv storeCO3 = .next t ∧
      checksPass .yuv2rgb { t with src := storeCO3.dst, dst := 0x3000#32 } ∧
      hostKeepsOwnership .yuv2rgb { t with src := storeCO3.dst, dst := 0x3000#32 } ∧
      exec .yuv2rgb { t with src := storeCO3.dst, dst := 0x3000#32 } = .next u ∧ 5 < storeCO3.npix * 3 :=
  ⟨_, _, by decide +kernel, checksPass_of_passes (by decide +kernel), hostKeeps_of_keeps (by decide +kernel),
    exec_of_passes (by decide +kernel), checksPass_of_passes (by decide +kernel),
    hostKeeps_of_keeps (by decide +kernel), exec_of_passes (by decide +kernel), by decide +kernel⟩

theorem witness_LuminanceIndexIsMonotone : (-1 : Int) ≤ 25500000 := by decide

/-- One state for each outcome of SCAN.IN's check phase, at the boundary of each check (vector SC8). -/
theorem witness_ScanlineErrorPriority :
    ¬ ({ arraySC1 with bpp := 16#6 } : State).depthOk = true ∧
    ({ arraySC1 with len := 15#32 } : State).len.toNat < ({ arraySC1 with len := 15#32 } : State).diskBytes ∧
    ¬ ({ arraySC1 with src := 0xFFFF1#32 } : State).inRange ({ arraySC1 with src := 0xFFFF1#32 } : State).srcDisk = true ∧
    ({ arraySC1 with dst := 0x100F#32 } : State).srcDisk.overlaps ({ arraySC1 with dst := 0x100F#32 } : State).dstStore =
      true ∧
    passes .scanIn { arraySC1 with dst := 0x1010#32, len := 16#32 } = true := by decide +kernel

/-- Sizes 4 and 5 on image A, and a divisor of 0: each is a way to fail the kernel check (vector CV17). -/
theorem witness_ConvolutionErrorPriority :
    ((4 ≠ 3 ∧ 4 ≠ 5) ∧ imageA.w < 5 ∧ imageA.depthOk = true) ∧ ({ imageA with kdiv := 0#16 } : State).kdiv = 0#16 ∧
      (Instr.convGauss5, 5) ∈ ([(.convBox3, 3), (.convGauss3, 3), (.convGauss5, 5), (.convEdge, 3), (.convEmboss, 3),
        (.convSharp, 3)] : List (Instr × Nat)) := by decide +kernel

theorem witness_HistogramAndColourErrorPriority :
    Instr.equalize ∈ ([.hist, .remap, .equalize] : List Instr) ∧ imageA.bpp ≠ 24#6 ∧
      ¬ ({ storeCO3 with src := 0xFFFFB#32 } : State).inRange ({ storeCO3 with src := 0xFFFFB#32 } : State).srcStore =
        true := by decide +kernel

theorem witness_FailedCommandIsAtomic :
    imageA.status.err = false ∧ exec (.convK 4) imageA = .next (failedWith imageA .eKernel) ∧
      (failedWith imageA .eKernel).status.err = true := ⟨rfl, exec_of_firstError (by decide +kernel), rfl⟩

theorem witness_CommandsKeepTheOperands : exec (.convK 4) imageA = .next (failedWith imageA .eKernel) :=
  exec_of_firstError (by decide +kernel)

/-- A command of each kind, and the run without the host's writes that its flags are compared with. -/
theorem witness_CommandsWriteOnlyWhatTheyOwn :
    spoiltEQ.mem.wf = true ∧ (∃ t, exec .equalize spoiltEQ = .next t) ∧
      (∃ u, exec .equalize
        { spoiltEQ with touched := [], mem := spoiltEQ.memAtAcceptance (sourceRegion .equalize spoiltEQ) } = .next u) ∧
      (writtenRegion .equalize spoiltEQ).contains 0x1003 = false ∧ (∃ t, exec .hist spoiltEQ = .next t) :=
  ⟨by decide +kernel, ⟨_, exec_of_passes (by decide +kernel)⟩, ⟨_, exec_of_passes (by decide +kernel)⟩,
    by decide +kernel, _, exec_of_passes (by decide +kernel)⟩

/-- A state with the given inputs pending and no command in flight. -/
def pending (l : List Input) : State := { State.reset with inputs := l }

theorem witness_CmdWriteAcceptsTheWord :
    (pending [.regWrite 4#10 0x3#32, .engine]).status.busy = false ∧
      (pending [.regWrite 4#10 0x3#32, .engine]).inputs = .regWrite 4#10 0x3#32 :: [.engine] := by decide +kernel

/-- The boundary offsets of each range of the map. -/
theorem witness_RegisterMapByOffset :
    (pending [.regWrite 40#10 1#32]).inputs = .regWrite 40#10 1#32 :: [] ∧
    4 * (11#10).toNat = 0x02C ∧ 4 * (40#10).toNat = 0x040 + 4 * ((24 : Fin 25) : Nat) ∧
    4 * (511#10).toNat = 0x400 + 4 * ((255 : Fin 256) : Nat) ∧ 4 * (767#10).toNat = 0x800 + 4 * ((255 : Fin 256) : Nat) ∧
    (0x030 ≤ 4 * (12#10).toNat ∧ 4 * (15#10).toNat ≤ 0x03C) ∧ (0x0A4 ≤ 4 * (41#10).toNat ∧ 4 * (255#10).toNat ≤ 0x3FC) ∧
    (0xC00 ≤ 4 * (768#10).toNat ∧ 4 * (1023#10).toNat ≤ 0xFFC) := by decide +kernel

theorem witness_IdleRegisterWrites : State.reset.status.busy = false := rfl

theorem witness_BusyRegisterWrites : imageA.status.busy = true := rfl

theorem witness_RegisterReadBack :
    State.reset.status.busy = false ∧ Reg.fmt ≠ .cmd ∧ Reg.src ≠ .fmt ∧ Reg.map 255 ≠ .cmd ∧ Reg.kn 24 ≠ .cmd := by
  decide +kernel

theorem witness_RegisterReadsHaveNoSideEffect :
    (pending [.regRead 767#10]).inputs = .regRead 767#10 :: [] ∧ (pending [.regRead 767#10]).status.busy = false ∧
      regAt 767#10 = .map 255 ∧ (regAt 2#10).isTable = false ∧ (failedWith imageA .eAlias).errcode = .eAlias := by
  decide +kernel

/-- A completion by the machine's own step, and a word for each of the other clauses. -/
theorem witness_InterruptLine :
    imageA.status.busy = true ∧ imageA.inputs = [] ∧
      step imageA = .next { imageA with status := ⟨false, true, false, false, false⟩ } ∧ (0x2#32).getLsbD 1 = true ∧
      ({ imageA with inputs := [.engine] } : State).inputs = .engine :: [] :=
  ⟨by decide +kernel, by decide +kernel, rfl, by decide, rfl⟩

theorem witness_ErrorAcknowledge :
    ({ failedWith imageA .eKernel with inputs := [.regWrite 2#10 0x6#32] } : State).inputs =
      .regWrite 2#10 0x6#32 :: [] ∧
    (failedWith imageA .eKernel).status.busy = false ∧
    ({ failedWith imageA .eKernel with inputs := [.regWrite 4#10 0x310#32] } : State).inputs =
      .regWrite 4#10 0x310#32 :: [] := ⟨rfl, rfl, rfl⟩

theorem witness_NopOnlyCompletes :
    ((0x100#32).extractLsb' 0 8 = 0x00#8 ∧ 0x100#32 ≠ 0x00000000#32) ∧
    (pending [.regWrite 4#10 0x00000000#32, .engine]).status.busy = false ∧
    (pending [.regWrite 4#10 0x00000000#32, .engine]).inputs = .regWrite 4#10 0x00000000#32 :: .engine :: [] := by
  decide +kernel

/-- The highest address that exists and the lowest that does not, and 2^32; a byte of the command's region loaded while a
legal word is in flight, and while an illegal one is. -/
theorem witness_HostMemoryAccess :
    (pending [.memWrite 0xFFFFF 1#8]).mem.wf = true ∧
    (0xFFFFF < (pending [.memWrite 0xFFFFF 1#8]).params.memBytes ∧
      (pending [.memWrite 0xFFFFF 1#8]).inputs = .memWrite 0xFFFFF 1#8 :: [] ∧
      (pending [.memRead 0xFFFFF]).inputs = .memRead 0xFFFFF :: [] ∧
      (pending [.memRead 0xFFFFF]).status.busy = false) ∧
    (storeEQ2.mem.wf = true ∧ storeEQ2.status.busy = true ∧ 0x1002 < storeEQ2.params.memBytes ∧
      storeEQ2.srcStore.contains 0x1002 = true ∧ decode ({ storeEQ2 with cmd := 0x23#32 } : State).cmd = .ok .equalize ∧
      writtenRegion .equalize storeEQ2 = storeEQ2.srcStore ∧ (writtenRegion .equalize storeEQ2).contains 0x1003 = false ∧
      decode ({ storeEQ2 with cmd := 0x3#32 } : State).cmd = .error .unassignedOpcode) ∧
    (∃ u, exec .equalize { storeEQ2 with cmd := 0x23#32, inputs := [] } = .next u) ∧
    ((pending [.memRead 0x100000]).params.memBytes ≤ 0x100000 ∧
      (pending [.memRead 0x100000]).params.memBytes ≤ 0x100000000 ∧
      (pending [.memRead 0x100000]).inputs = .memRead 0x100000 :: []) :=
  ⟨by decide +kernel, by decide +kernel, by decide +kernel, ⟨_, exec_of_passes (by decide +kernel)⟩, by decide +kernel⟩

/-- A reset of an idle engine, of one with a legal word in flight and of one with an illegal word. -/
theorem witness_ResetPulse :
    ((pending [.reset]).mem.wf = true ∧ (pending [.reset]).inputs = .reset :: [] ∧
      (pending [.reset]).status.busy = false) ∧
    (({ storeEQ2 with cmd := 0x23#32, inputs := [.reset] } : State).mem.wf = true ∧
      ({ storeEQ2 with cmd := 0x23#32, inputs := [.reset] } : State).status.busy = true ∧
      decode ({ storeEQ2 with cmd := 0x23#32, inputs := [.reset] } : State).cmd = .ok .equalize) ∧
    (∃ u, exec .equalize { storeEQ2 with cmd := 0x23#32, inputs := [] } = .next u) ∧
    decode ({ storeEQ2 with cmd := 0x3#32, inputs := [.reset] } : State).cmd = .error .unassignedOpcode :=
  ⟨by decide +kernel, by decide +kernel, ⟨_, exec_of_passes (by decide +kernel)⟩, by decide +kernel⟩

/-- Image A whose host has written the first byte of the destination while the command ran. -/
def disturbedA : State := { imageA with touched := [(0x2000, 0#8)] }

theorem witness_BrokenDestinationHazardIsConfined :
    disturbedA.mem.wf = true ∧ checksPass .convBox3 disturbedA ∧
      (∀ c ∈ disturbedA.touched, (sourceRegion .convBox3 disturbedA).contains c.1 = false) ∧
      (∃ t, exec .convBox3 disturbedA = .next t) ∧ (∃ u, exec .convBox3 { disturbedA with touched := [] } = .next u) ∧
      disturbedA.hostWrote 0x2000 = true ∧ disturbedA.hostWrote 0x2001 = false :=
  ⟨by decide +kernel, checksPass_of_passes (by decide +kernel), by decide +kernel,
    ⟨_, exec_of_passes (by decide +kernel)⟩, ⟨_, exec_of_passes (by decide +kernel)⟩, by decide +kernel,
    by decide +kernel⟩

end Sys2Proof.Tests
end

/-! The decoder of the command word (30_encoding.md R92, R93): one equation per branch of `decode`, the format Z rows
as a table, and the decoding procedure assembled from them. -/

namespace Sys2Proof

/-- The fifteen format Z rows of the opcode map with their opcodes (30_encoding.md R92); `formatZ_eq_some_iff` ties the
table to the decoder. -/
def formatZRows : List (BitVec 8 × Instr) :=
  [(0x00#8, .nop), (0x01#8, .scanIn), (0x02#8, .scanOut), (0x11#8, .convBox3), (0x12#8, .convGauss3),
   (0x13#8, .convGauss5), (0x14#8, .convEdge), (0x15#8, .convEmboss), (0x16#8, .convSharp), (0x20#8, .hist),
   (0x21#8, .eqmap), (0x22#8, .remap), (0x23#8, .equalize), (0x30#8, .rgb2yuv), (0x31#8, .yuv2rgb)]

/-- The sixteen assigned opcodes (30_encoding.md R93). -/
def assignedOpcodes : List (BitVec 8) :=
  [0x00#8, 0x01#8, 0x02#8, 0x10#8, 0x11#8, 0x12#8, 0x13#8, 0x14#8, 0x15#8, 0x16#8, 0x20#8, 0x21#8, 0x22#8, 0x23#8,
   0x30#8, 0x31#8]

/-! ### The rows -/

/-- The decoder's format Z lookup answers exactly the rows of the table. -/
theorem formatZ_eq_some_iff {op : BitVec 8} {i : Instr} : formatZ op = some i ↔ (op, i) ∈ formatZRows := by
  constructor
  · intro h
    unfold formatZ at h
    split at h <;> cases h <;> decide
  · have rows_agree : ∀ row ∈ formatZRows, formatZ row.1 = some row.2 := by decide
    exact rows_agree (op, i)

theorem formatZ_convK_opcode : formatZ 0x10#8 = none := rfl

/-- An opcode is assigned when it is CONV.K's or some format Z row's. -/
theorem mem_assignedOpcodes_iff {op : BitVec 8} :
    op ∈ assignedOpcodes ↔ op = 0x10#8 ∨ ∃ i, formatZ op = some i := by
  constructor
  · have assigned : ∀ o ∈ assignedOpcodes, o = 0x10#8 ∨ (formatZ o).isSome = true := by decide
    exact fun h => (assigned op h).imp_right Option.isSome_iff_exists.mp
  · have rows_assigned : ∀ row ∈ formatZRows, row.1 ∈ assignedOpcodes := by decide
    rintro (rfl | ⟨i, hi⟩)
    · decide
    · exact rows_assigned (op, i) (formatZ_eq_some_iff.mp hi)

/-! ### The branches of the decoder -/

/-- Format N (30_encoding.md R91). -/
theorem decode_of_convK_opcode {w : Word} (hop : opcodeField w = 0x10#8) :
    decode w = if w.extractLsb' 12 20 = 0#20 then .ok (.convK (sizeField w)) else .error .reservedBits := by
  rw [decode, if_pos hop, ite_not]

/-- Format Z. CONV.K's opcode is no row of it, so the lookup alone decides the branch. -/
theorem decode_of_formatZ_eq_some {w : Word} {i : Instr} (hi : formatZ (opcodeField w) = some i) :
    decode w = if w.extractLsb' 8 24 = 0#24 then .ok i else .error .reservedBits := by
  have hop : opcodeField w ≠ 0x10#8 := by
    intro h
    rw [h, formatZ_convK_opcode] at hi
    cases hi
  simp only [decode, if_neg hop, hi, ite_not]

/-- The 240 opcodes of 30_encoding.md R96. -/
theorem decode_of_unassigned_opcode {w : Word} (hop : opcodeField w ∉ assignedOpcodes) :
    decode w = .error .unassignedOpcode := by
  obtain ⟨hconvK, hrows⟩ := not_or.mp (mt mem_assignedOpcodes_iff.mpr hop)
  have hnone : formatZ (opcodeField w) = none := Option.eq_none_iff_forall_ne_some.mpr (not_exists.mp hrows)
  simp only [decode, if_neg hconvK, hnone]

/-! ### The procedure -/

/-- Settles O4: each clause is one branch of the decoder, the opcodes told apart by the table of format Z rows. -/
theorem decodingProcedure : Obligations.DecodingProcedure := by
  intro w
  refine ⟨fun hop hres => ?convKReserved, fun hop hres => ?convK, fun row hrow hop => ?formatZ, fun hop => ?unassigned⟩
  case convKReserved => exact ⟨_, (decode_of_convK_opcode hop).trans (if_neg hres)⟩
  case convK => exact (decode_of_convK_opcode hop).trans (if_pos hres)
  case formatZ =>
    have hi : formatZ (opcodeField w) = some row.2 := by
      rw [show opcodeField w = row.1 from hop]
      exact formatZ_eq_some_iff.mpr hrow
    have hdecode := decode_of_formatZ_eq_some hi
    exact ⟨fun hres => ⟨_, hdecode.trans (if_neg hres)⟩, fun hres => hdecode.trans (if_pos hres)⟩
  case unassigned => exact ⟨_, decode_of_unassigned_opcode hop⟩

end Sys2Proof

/-! The padding arithmetic of the on-disk array (40_scanline.md R123): the padding as a function of the width at each
depth, and the largest row, stride and array. -/

namespace Sys2Proof.Machine

/-! ### One row at each depth -/

theorem State.rowb_of_bpp8 {s : State} (h8 : s.bpp = 8#6) : s.rowb = s.w := by
  rw [State.rowb, State.bppb_eq_one h8, Nat.mul_one]

theorem State.rowb_of_bpp24 {s : State} (h24 : s.bpp = 24#6) : s.rowb = 3 * s.w := by
  rw [State.rowb, State.bppb_eq_three h24, Nat.mul_comm]

/-- Three pixels' worth of bytes is −1 modulo 4, so the padding complements it to the width. -/
theorem pad_three_mul (n : Nat) : pad (3 * n) = n % 4 := by unfold pad; omega

theorem State.padb_of_bpp8 {s : State} (h8 : s.bpp = 8#6) : s.padb = (4 - s.w % 4) % 4 := by
  rw [State.padb, State.rowb_of_bpp8 h8, pad]

theorem State.padb_of_bpp24 {s : State} (h24 : s.bpp = 24#6) : s.padb = s.w % 4 := by
  rw [State.padb, State.rowb_of_bpp24 h24, pad_three_mul]

/-! ### Padding, stride and the largest sizes -/

theorem State.padb_le_three (s : State) : s.padb ≤ 3 := Nat.le_of_lt_succ (pad_lt s.rowb)

theorem State.stride_mod_four (s : State) : s.stride % 4 = 0 := add_pad_mod s.rowb

theorem State.w_le (s : State) : s.w ≤ 65535 := Nat.le_of_lt_succ s.width.isLt

theorem State.h_le (s : State) : s.h ≤ 65535 := Nat.le_of_lt_succ s.height.isLt

theorem State.bppb_le_three (s : State) : s.bppb ≤ 3 := by unfold State.bppb; split_ifs <;> omega

theorem State.rowb_le (s : State) : s.rowb ≤ 196605 := Nat.mul_le_mul s.w_le s.bppb_le_three

theorem State.stride_le (s : State) : s.stride ≤ 196608 := Nat.add_le_add s.rowb_le s.padb_le_three

theorem State.diskBytes_le (s : State) : s.diskBytes ≤ 65535 * 196608 := Nat.mul_le_mul s.h_le s.stride_le

end Sys2Proof.Machine

namespace Sys2Proof

open Machine

/-- Settles O17: the depth clauses are the row's size at each depth put into `pad`; the bounds hold at any depth,
because W and H are 16-bit fields and BPPB is at most 3. -/
theorem paddingArithmetic : Obligations.PaddingArithmetic := by
  intro s _
  have depth8 (h8 : s.bpp = 8#6) : s.padb = (4 - s.w % 4) % 4 := State.padb_of_bpp8 h8
  have depth24 (h24 : s.bpp = 24#6) :
      s.rowb = 3 * s.w ∧ 3 * s.w % 4 = (4 - s.w % 4) % 4 ∧ s.padb = s.w % 4 :=
    ⟨State.rowb_of_bpp24 h24, by omega, State.padb_of_bpp24 h24⟩
  have disk_lt : s.diskBytes < 2 ^ 34 := s.diskBytes_le.trans_lt (by norm_num)
  exact ⟨s.stride_mod_four, s.padb_le_three, depth8, depth24, s.rowb_le, s.stride_le, s.diskBytes_le, disk_lt⟩

end Sys2Proof

/-! Acceptance and NOP (44_system.md R220, R229): the step that is a CMD write of an idle block, the engine's turn on a
legal word, and NOP's life cycle assembled from them. -/

namespace Sys2Proof.Machine

variable {s : State}

/-! ### Acceptance -/

theorem State.regWrite_cmd_of_idle (hidle : s.status.busy = false) (w : Word) : s.regWrite .cmd w = s.accept w := by
  simp [State.regWrite, State.regWriteIdle, hidle]

/-- The register at index 4 is CMD, so its write is the acceptance, whatever the word (10_state.md R40). -/
theorem step_of_cmdWrite {w : Word} {rest : List Input} (hidle : s.status.busy = false)
    (hinputs : s.inputs = .regWrite 4#10 w :: rest) : step s = .next ({ s with inputs := rest }.accept w) :=
  (step_of_input hinputs).trans
    (congrArg Host.Outcome.next (State.regWrite_cmd_of_idle (s := { s with inputs := rest }) hidle w))

@[simp] theorem State.accept_irq (s : State) (w : Word) : (s.accept w).irq = false := by simp [State.irq]

/-! ### The engine's turn -/

theorem engineTurn_of_decode_ok {i : Instr} (hbusy : s.status.busy = true) (hdecode : decode s.cmd = .ok i) :
    engineTurn s = exec i s := by
  simp [engineTurn, hbusy, hdecode]

/-- The engine's turn as the pending input, on a legal word (44_system.md R221). -/
theorem step_of_engine_of_decode_ok {i : Instr} {rest : List Input} (hinputs : s.inputs = .engine :: rest)
    (hbusy : s.status.busy = true) (hdecode : decode s.cmd = .ok i) :
    step s = exec i { s with inputs := rest } :=
  (step_of_input hinputs).trans (engineTurn_of_decode_ok (s := { s with inputs := rest }) hbusy hdecode)

/-! ### NOP -/

theorem checksPass_nop (s : State) : checksPass .nop s := fun _ hc => absurd hc List.not_mem_nil

/-- NOP's two regions are empty, so no host can disturb it (70_reset_and_hazards.md R270). -/
theorem hostKeepsOwnership_nop (s : State) : hostKeepsOwnership .nop s :=
  fun c _ => ⟨noRegion_contains c.1, noRegion_contains c.1⟩

/-- NOP's whole meaning is its completion without a fallback. -/
theorem exec_nop (s : State) : exec .nop s = .next (s.complete false) :=
  exec_performs (checksPass_nop s) (hostKeepsOwnership_nop s)

end Sys2Proof.Machine

namespace Sys2Proof

open Machine

/-- A word is its opcode and the 24 bits above it (30_encoding.md R90). -/
theorem eq_zero_of_fields_eq_zero {w : Word} (hop : opcodeField w = 0#8) (hres : w.extractLsb' 8 24 = 0#24) :
    w = 0#32 := by
  have hlow : w.toNat % 2 ^ 8 = 0 := by simpa [opcodeField] using congrArg BitVec.toNat hop
  have hhigh : w.toNat / 2 ^ 8 % 2 ^ 24 = 0 := by
    simpa [Nat.shiftRight_eq_div_pow] using congrArg BitVec.toNat hres
  have hlt := w.isLt
  exact BitVec.eq_of_toNat_eq (by simp; omega)

/-- Of the words with NOP's opcode the decoder takes 0 alone (30_encoding.md R93, R96). -/
theorem decode_of_nop_opcode {w : Word} (hop : opcodeField w = 0#8) :
    decode w = if w = 0#32 then .ok .nop else .error .reservedBits := by
  have hrow : formatZ (opcodeField w) = some .nop := by rw [hop]; rfl
  have hzero : w.extractLsb' 8 24 = 0#24 ↔ w = 0#32 :=
    ⟨eq_zero_of_fields_eq_zero hop, fun h => by rw [h]; rfl⟩
  simp only [decode_of_formatZ_eq_some hrow, hzero]

theorem decode_nop_word : decode 0x00000000#32 = .ok .nop := (decode_of_nop_opcode rfl).trans (if_pos rfl)

/-- Settles O50: the step is the acceptance of the word, which sets the fields the statement lists and lowers DONE, and
with it irq. -/
theorem cmdWriteAcceptsTheWord : Obligations.CmdWriteAcceptsTheWord := by
  intro s w rest hidle hinputs
  exact ⟨_, step_of_cmdWrite hidle hinputs, rfl, State.accept_irq _ w⟩

/-- Settles O49: the completion is NOP's meaning on every state, its word is the one legal word of its opcode, and the
life cycle is an acceptance followed by the engine's turn on that word. -/
theorem nopOnlyCompletes : Obligations.NopOnlyCompletes := by
  refine ⟨fun s => ?completes, decode_nop_word, fun w hop hw => ?illegal, fun s rest hidle hinputs => ?lifeCycle⟩
  case completes =>
    have hdegen : (s.status.degen || false) = s.status.degen := Bool.or_false _
    rw [exec_nop, State.complete, Status.completed, hdegen]
  case illegal => exact ⟨_, (decode_of_nop_opcode hop).trans (if_neg hw)⟩
  case lifeCycle =>
    refine ⟨_, step_of_cmdWrite hidle hinputs, rfl, ?_⟩
    exact (step_of_engine_of_decode_ok rfl rfl decode_nop_word).trans (exec_nop _)

end Sys2Proof

/-! The interrupt line and the acknowledge (60_exceptions.md R238, R240, R244): what completion leaves in IE and DONE,
what a write of STATUS or of CTRL does whether or not BUSY = 1, and the two obligations assembled from them. -/

namespace Sys2Proof.Machine

variable {s : State}

/-! ### Completion -/

/-- A command ends with DONE = 1 and IE as it was, whether its check phase failed or it performed (44_system.md R222). -/
theorem exec_raises_done {i : Instr} {t : State} (h : exec i s = .next t) : t.status.done = true ∧ t.ie = s.ie := by
  rcases exec_cases h with ⟨code, _, rfl⟩ | ⟨_, rfl⟩
  · exact ⟨rfl, rfl⟩
  · exact ⟨rfl, rfl⟩

/-- With a command in flight the engine's turn is its completion; an illegal word completes too (30_encoding.md R96). -/
theorem engineTurn_raises_done {t : State} (hbusy : s.status.busy = true) (h : engineTurn s = .next t) :
    t.status.done = true ∧ t.ie = s.ie := by
  rcases engineTurn_cases s with ⟨hidle, _⟩ | ⟨_, i, _, hturn⟩ | ⟨_, e, _, hturn⟩
  · exact absurd (hbusy.symm.trans hidle) Bool.noConfusion
  · exact exec_raises_done (hturn.symm.trans h)
  · cases hturn.symm.trans h
    exact ⟨rfl, rfl⟩

/-- The two ways the engine's turn comes differ only in the inputs that stay (log entry 1). -/
theorem step_eq_engineTurn (hinputs : s.inputs = [] ∨ ∃ rest, s.inputs = .engine :: rest) :
    ∃ l, step s = engineTurn { s with inputs := l } := by
  rcases hinputs with hnil | ⟨rest, hengine⟩
  · exact ⟨s.inputs, step_of_idle_inputs hnil⟩
  · exact ⟨rest, step_of_input hengine⟩

theorem State.irq_of_done (hdone : s.status.done = true) : s.irq = s.ie := by simp [State.irq, hdone]

theorem State.irq_of_not_done (hdone : s.status.done = false) : s.irq = false := by simp [State.irq, hdone]

/-! ### Writes of STATUS and CTRL, which BUSY does not stop -/

theorem State.regWrite_status (s : State) (v : Word) : s.regWrite .status v = s.acknowledge v := by
  cases hbusy : s.status.busy <;> simp [State.regWrite, State.regWriteBusy, State.regWriteIdle, hbusy]

theorem State.regWrite_ctrl (s : State) (v : Word) : s.regWrite .ctrl v = { s with ie := v.getLsbD 0 } := by
  cases hbusy : s.status.busy <;> simp [State.regWrite, State.regWriteBusy, State.regWriteIdle, hbusy]

/-- A write that clears bit 1 lowers DONE, and with it irq. -/
theorem State.acknowledge_irq {v : Word} (hv : v.getLsbD 1 = true) : (s.acknowledge v).irq = false :=
  State.irq_of_not_done (by simp [hv])

/-- The register at index 2 is STATUS, so its write is the acknowledge (10_state.md R40). -/
theorem step_of_statusWrite {v : Word} {rest : List Input} (hinputs : s.inputs = .regWrite 2#10 v :: rest) :
    step s = .next ({ s with inputs := rest }.acknowledge v) :=
  (step_of_input hinputs).trans (congrArg Host.Outcome.next (State.regWrite_status { s with inputs := rest } v))

/-- The word `ack 0x6` clears DONE and ERR and no other flag (60_exceptions.md R240). -/
theorem Status.writeOneToClear_six (f : Status) :
    f.writeOneToClear 0x6#32 = { f with done := false, err := false } := by
  simp [Status.writeOneToClear]

end Sys2Proof.Machine

namespace Sys2Proof

open Machine

/-- Settles O56: irq is IE and DONE, so each clause is what its event does to the two: acceptance and a W1C of bit 1
lower DONE, completion raises it and keeps IE, and a write of CTRL sets IE alone. -/
theorem interruptLine : Obligations.InterruptLine := by
  refine fun s => ⟨rfl, State.accept_irq s, fun t hbusy hinputs hstep => ?completion, fun v hv => ?w1c, fun v => ?ctrl⟩
  case completion =>
    obtain ⟨l, hturn⟩ := step_eq_engineTurn hinputs
    obtain ⟨hdone, hie⟩ := engineTurn_raises_done (s := { s with inputs := l }) hbusy (hturn.symm.trans hstep)
    exact ⟨(State.irq_of_done hdone).trans hie, hie⟩
  case w1c =>
    rw [State.regWrite_status]
    exact State.acknowledge_irq hv
  case ctrl =>
    rw [State.regWrite_ctrl]
    rfl

/-- Settles O57: way (a) is the step that writes STATUS, with the one word that clears ERR and DONE alone; way (b) is the
step that accepts the next word. -/
theorem errorAcknowledge : Obligations.ErrorAcknowledge := by
  refine fun s rest => ⟨fun hinputs => ?statusWrite, fun w hidle hinputs => ?cmdWrite⟩
  case statusWrite =>
    refine ⟨_, step_of_statusWrite hinputs, State.acknowledge_irq rfl, rfl, ?_⟩
    rw [State.acknowledge, Status.writeOneToClear_six]
  case cmdWrite =>
    exact ⟨_, step_of_cmdWrite hidle hinputs, rfl, rfl, rfl, rfl, rfl, rfl, State.accept_irq _ w⟩

end Sys2Proof

/-! The encoder against the decoder (30_encoding.md R90 to R93): when a word decodes, as an equivalence over its fields,
and from it the two directions of the round trip and the table of masks and patterns. -/

namespace Sys2Proof

/-! ### A word from its fields -/

/-- A word whose upper 24 bits are 0 is its opcode, zero-extended. -/
theorem eq_zeroExtend_opcodeField {w : Word} (hres : w.extractLsb' 8 24 = 0#24) :
    w = (opcodeField w).zeroExtend 32 := by
  have hhigh : w.toNat / 2 ^ 8 % 2 ^ 24 = 0 := by
    simpa [Nat.shiftRight_eq_div_pow] using congrArg BitVec.toNat hres
  have hlt := w.isLt
  refine BitVec.eq_of_toNat_eq ?_
  simp [opcodeField]
  omega

theorem sizeField_lt (w : Word) : sizeField w < 16 := (w.extractLsb' 8 4).isLt

/-- A word with CONV.K's opcode and no reserved bit is the word of CONV.K with its size field (30_encoding.md R91). -/
theorem eq_encode_convK {w : Word} (hop : opcodeField w = 0x10#8) (hres : w.extractLsb' 12 20 = 0#20) :
    encode (.convK (sizeField w)) = w := by
  have hlow : w.toNat % 2 ^ 8 = 16 := by simpa [opcodeField] using congrArg BitVec.toNat hop
  have hhigh : w.toNat / 2 ^ 12 % 2 ^ 20 = 0 := by
    simpa [Nat.shiftRight_eq_div_pow] using congrArg BitVec.toNat hres
  have hsize : sizeField w = w.toNat / 2 ^ 8 % 16 := by simp [sizeField, Nat.shiftRight_eq_div_pow]
  have hword : w.toNat = 16 + 256 * sizeField w := by have := w.isLt; omega
  have hencode : ∀ n < 16, encode (.convK n) = BitVec.ofNat 32 (16 + 256 * n) := by decide
  rw [hencode _ (sizeField_lt w), ← hword, BitVec.ofNat_toNat, BitVec.setWidth_eq]

/-! ### When a word decodes -/

theorem decode_eq_ok_iff {w : Word} {i : Instr} : decode w = .ok i ↔
    (opcodeField w = 0x10#8 ∧ w.extractLsb' 12 20 = 0#20 ∧ i = .convK (sizeField w)) ∨
      (formatZ (opcodeField w) = some i ∧ w.extractLsb' 8 24 = 0#24) := by
  by_cases hassigned : opcodeField w ∈ assignedOpcodes
  · rcases mem_assignedOpcodes_iff.mp hassigned with hop | ⟨j, hj⟩
    · rw [decode_of_convK_opcode hop, hop, formatZ_convK_opcode]
      split_ifs with hres <;> simp [hres, eq_comm]
    · have hop : opcodeField w ≠ 0x10#8 := by
        intro h
        rw [h, formatZ_convK_opcode] at hj
        cases hj
      rw [decode_of_formatZ_eq_some hj, hj]
      split_ifs with hres <;> simp [hres, hop]
  · obtain ⟨hconvK, hrows⟩ := not_or.mp (mt mem_assignedOpcodes_iff.mpr hassigned)
    simp [decode_of_unassigned_opcode hassigned, hconvK, not_exists.mp hrows i]

/-- A format Z command is well formed and its word is its opcode, zero-extended (30_encoding.md R90). -/
theorem encode_of_formatZ {op : BitVec 8} {i : Instr} (h : formatZ op = some i) :
    encode i = op.zeroExtend 32 ∧ i.wellFormed = true := by
  have rows : ∀ row ∈ formatZRows, encode row.2 = row.1.zeroExtend 32 ∧ row.2.wellFormed = true := by decide
  exact rows (op, i) (formatZ_eq_some_iff.mp h)

theorem decode_encode_convK {n : Nat} (hn : n < 16) : decode (encode (.convK n)) = .ok (.convK n) := by
  have sizes : ∀ m < 16, decode (encode (.convK m)) = .ok (.convK m) := by decide
  exact sizes n hn

/-- Settles O1: CONV.K size by size, every other command by its one word. -/
theorem decodeOfEncodeIsTheCommand : Obligations.DecodeOfEncodeIsTheCommand := by
  intro i hi
  cases i
  case convK n => exact decode_encode_convK (by simpa [Instr.wellFormed] using hi)
  all_goals rfl

/-- Settles O2: a decoded word has no bit outside its opcode and, for CONV.K, its size field, so the fields give the
word back. -/
theorem encodeOfDecodeIsTheWord : Obligations.EncodeOfDecodeIsTheWord := by
  intro w i hdecode
  rcases decode_eq_ok_iff.mp hdecode with ⟨hop, hres, rfl⟩ | ⟨hrow, hres⟩
  · exact ⟨eq_encode_convK hop hres, by simpa [Instr.wellFormed] using sizeField_lt w⟩
  · obtain ⟨hencode, hwf⟩ := encode_of_formatZ hrow
    exact ⟨hencode.trans (eq_zeroExtend_opcodeField hres).symm, hwf⟩

/-- Settles O5: each sample is the word `encode` gives its command. -/
theorem sampleWordsDecode : Obligations.SampleWordsDecode :=
  have decodes := decodeOfEncodeIsTheCommand
  ⟨decodes .nop rfl, decodes .scanIn rfl, decodes (.convK 3) rfl, decodes (.convK 4) rfl, decodes .convSharp rfl,
    decodes .equalize rfl, decodes .yuv2rgb rfl⟩

/-! ### The table of masks and patterns (30_encoding.md R92) -/

/-- A field the mask covers wholly is the pattern's (30_encoding.md R92). -/
theorem extractLsb'_eq_of_and_eq {w m p : Word} {start len : Nat} (h : w &&& m = p)
    (hones : m.extractLsb' start len = BitVec.allOnes len) : w.extractLsb' start len = p.extractLsb' start len := by
  rw [← h, BitVec.extractLsb'_and, hones, BitVec.and_allOnes]

/-- The row of CONV.K tests the opcode and the reserved bits and leaves the size field free. -/
theorem and_mask_convK {w : Word} (h : w &&& 0xFFFFF0FF#32 = 0x10#32) :
    opcodeField w = 0x10#8 ∧ w.extractLsb' 12 20 = 0#20 :=
  ⟨extractLsb'_eq_of_and_eq h (by decide), extractLsb'_eq_of_and_eq h (by decide)⟩

/-- A row selects words of its own opcode only. -/
theorem opcodeField_of_selects {r : OpcodeRow} {w : Word} (hr : r ∈ opcodeMap) (h : r.selects w = true) :
    opcodeField w = opcodeField r.opPattern := by
  have masks : ∀ r ∈ opcodeMap, r.opMask.extractLsb' 0 8 = BitVec.allOnes 8 := by decide
  exact extractLsb'_eq_of_and_eq (beq_iff_eq.mp h) (masks r hr)

/-- The word of a well-formed command selects a row that reads the command. -/
theorem exists_row_of_wellFormed {i : Instr} (hi : i.wellFormed = true) :
    ∃ r ∈ opcodeMap, r.selects (encode i) = true ∧ r.reads (encode i) = i := by
  cases i
  case convK n =>
    have sizes : ∀ m < 16, ∃ r ∈ opcodeMap, r.selects (encode (.convK m)) = true ∧
        r.reads (encode (.convK m)) = .convK m := by decide
    exact sizes n (by simpa [Instr.wellFormed] using hi)
  all_goals decide

/-- A word that selects a row decodes to what the row reads: CONV.K's row by its fields, every other row because its
mask has every bit and leaves one word. -/
theorem decode_of_selects {r : OpcodeRow} {w : Word} (hr : r ∈ opcodeMap) (h : r.selects w = true) :
    decode w = .ok (r.reads w) := by
  have rows : ∀ r ∈ opcodeMap, r.opMask ≠ 0xFFFFFFFF#32 → r.opMask = 0xFFFFF0FF#32 ∧ r.opPattern = 0x10#32 := by
    decide
  have words : ∀ r ∈ opcodeMap, r.opMask = 0xFFFFFFFF#32 → decode r.opPattern = .ok (r.reads r.opPattern) := by
    decide
  have hmask : w &&& r.opMask = r.opPattern := beq_iff_eq.mp h
  by_cases hfull : r.opMask = 0xFFFFFFFF#32
  · have hw : w = r.opPattern := by rw [← hmask, hfull]; exact (BitVec.and_allOnes (x := w)).symm
    rw [hw]
    exact words r hr hfull
  · obtain ⟨hm, hp⟩ := rows r hr hfull
    have hreads : ∀ r ∈ opcodeMap, r.opMask = 0xFFFFF0FF#32 → r.reads = fun w => .convK (sizeField w) := by
      simp [opcodeMap]
    rw [hm, hp] at hmask
    obtain ⟨hop, hres⟩ := and_mask_convK hmask
    rw [hreads r hr hm]
    exact decode_eq_ok_iff.mpr (.inl ⟨hop, hres, rfl⟩)

/-- Settles O3: a decoded word is the word of its command, which selects the command's row; the rows a word selects all
have the word's opcode, and no two rows share one. -/
theorem decoderSelectsByMaskAndMatch : Obligations.DecoderSelectsByMaskAndMatch := by
  refine ⟨fun w i => ⟨fun hdecode => ?selected, fun ⟨r, hr, hsel, hreads⟩ => ?decoded⟩, fun w => ?unique⟩
  case selected =>
    obtain ⟨rfl, hwf⟩ := encodeOfDecodeIsTheWord w i hdecode
    exact exists_row_of_wellFormed hwf
  case decoded =>
    rw [decode_of_selects hr hsel, hreads]
  case unique =>
    have distinct : (opcodeMap.map fun r => opcodeField r.opPattern).Nodup := by decide
    have selected : ((opcodeMap.filter fun r => r.selects w).map fun r => opcodeField r.opPattern).Nodup :=
      distinct.sublist (List.filter_sublist.map _)
    have constant : ∀ o ∈ (opcodeMap.filter fun r => r.selects w).map (fun r => opcodeField r.opPattern),
        o = opcodeField w := by
      intro o ho
      obtain ⟨r, hr, rfl⟩ := List.mem_map.mp ho
      obtain ⟨hmem, hsel⟩ := List.mem_filter.mp hr
      exact (opcodeField_of_selects hmem hsel).symm
    rw [List.eq_replicate_of_mem constant, List.nodup_replicate, List.length_map] at selected
    exact selected

end Sys2Proof

/-! A turn of the engine (44_system.md R220 to R223, 60_exceptions.md R231, 70_reset_and_hazards.md R272): what it does
on a legal word, on an illegal one and when the block is idle, wherever it stands among the inputs. -/

namespace Sys2Proof.Machine

variable {s : State}

theorem engineTurn_of_decode_error {e : DecodeError} (hbusy : s.status.busy = true)
    (hdecode : decode s.cmd = .error e) : engineTurn s = .next (failedWith s .eCmd) := by
  simp [engineTurn, hbusy, hdecode, enterError_eq_failedWith]

theorem engineTurn_of_idle (hidle : s.status.busy = false) : engineTurn s = .next s := by
  simp [engineTurn, hidle]

theorem step_of_engine {rest : List Input} (hinputs : s.inputs = .engine :: rest) :
    step s = engineTurn { s with inputs := rest } := step_of_input hinputs

theorem State.with_inputs_self {l : List Input} (hinputs : s.inputs = l) : { s with inputs := l } = s := by
  subst hinputs
  rfl

/-- Both ways the engine's turn comes, as the turn on the state without that input. -/
theorem step_eq_engineTurn_rest {rest : List Input}
    (hinputs : (s.inputs = [] ∧ rest = []) ∨ s.inputs = .engine :: rest) :
    step s = engineTurn { s with inputs := rest } := by
  rcases hinputs with ⟨hnil, rfl⟩ | hengine
  · rw [State.with_inputs_self hnil]
    exact step_of_idle_inputs hnil
  · exact step_of_engine hengine

/-- A word placed by its acceptance is run by the very next step (log entry 2). -/
theorem step_acceptNext {w : Word} {i : Instr} (hdecode : decode w = .ok i) :
    step (s.acceptNext w) = exec i (s.accept w) := by
  cases hinputs : s.inputs with
  | nil =>
    have hsame : s.acceptNext w = s.accept w := by
      rw [State.acceptNext, hinputs]
      exact State.with_inputs_self hinputs
    rw [hsame]
    exact (step_of_idle_inputs (s := s.accept w) hinputs).trans (engineTurn_of_decode_ok rfl hdecode)
  | cons e rest =>
    have hnext : (s.acceptNext w).inputs = .engine :: s.inputs := by simp [hinputs]
    exact step_of_engine_of_decode_ok (s := s.acceptNext w) hnext rfl hdecode

theorem withFetchWord_word (s : State) (w : Word) : s.withFetchWord 32 w.toNat = s.acceptNext w := by
  rw [State.withFetchWord, Nat.mod_eq_of_lt w.isLt, BitVec.ofNat_toNat, BitVec.setWidth_eq]

/-- What a command answers: error entry or its operation, never a stop (70_reset_and_hazards.md R272). -/
theorem exec_answers (i : Instr) (s : State) :
    (∃ code, exec i s = .next (s.enterError code)) ∨ exec i s = .next (s.perform (effectOf i s)) := by
  rw [exec_eq_runCommand]
  exact (runCommand_cases s (checksOf i s) (effectOf i s)).imp (fun ⟨code, _, h⟩ => ⟨code, h⟩) And.right

/-- A command in flight completes in the engine's turn (70_reset_and_hazards.md R272). -/
theorem engineTurn_completes (hbusy : s.status.busy = true) :
    ∃ t, engineTurn s = .next t ∧ t.status.busy = false ∧ t.status.done = true ∧ t.cmd = s.cmd ∧
      t.inputs = s.inputs := by
  cases hdecode : decode s.cmd with
  | error e => exact ⟨_, engineTurn_of_decode_error hbusy hdecode, rfl, rfl, rfl, rfl⟩
  | ok i =>
    rcases exec_answers i s with ⟨code, hexec⟩ | hexec
    · exact ⟨_, (engineTurn_of_decode_ok hbusy hdecode).trans hexec, rfl, rfl, rfl, rfl⟩
    · exact ⟨_, (engineTurn_of_decode_ok hbusy hdecode).trans hexec, rfl, rfl, rfl, rfl⟩

end Sys2Proof.Machine

namespace Sys2Proof

open Machine

/-- Settles O6: the engine's turn on a legal word is its command, whether it is the pending input, nothing is pending,
or the word has just been placed. -/
theorem stepRunsTheDecodedCommand : Obligations.StepRunsTheDecodedCommand := by
  refine ⟨fun s i hbusy hdecode _ => ⟨fun hnil => ?idle, fun rest hengine => ?turn⟩, fun s w i hdecode => ?placed⟩
  case idle => exact (step_of_idle_inputs hnil).trans (engineTurn_of_decode_ok hbusy hdecode)
  case turn => exact step_of_engine_of_decode_ok hengine hbusy hdecode
  case placed => rw [withFetchWord_word, step_acceptNext hdecode]

/-- Settles O7: both ways the engine's turn comes are the turn on an illegal word, which is error entry with `E_CMD`. -/
theorem illegalWordFailsWithECmd : Obligations.IllegalWordFailsWithECmd := by
  refine fun s e hbusy hdecode => ⟨fun hnil => ?idle, fun rest hengine => ?turn⟩
  case idle => exact (step_of_idle_inputs hnil).trans (engineTurn_of_decode_error hbusy hdecode)
  case turn =>
    exact (step_of_engine hengine).trans (engineTurn_of_decode_error (s := { s with inputs := rest }) hbusy hdecode)

/-- Settles O8: the turn on the state without its own input completes a command in flight and does nothing when idle. -/
theorem engineTurnAlwaysCompletes : Obligations.EngineTurnAlwaysCompletes := by
  intro s rest hinputs
  rw [step_eq_engineTurn_rest hinputs]
  exact ⟨fun hbusy => engineTurn_completes (s := { s with inputs := rest }) hbusy,
    fun hidle => engineTurn_of_idle (s := { s with inputs := rest }) hidle⟩

/-- Settles O9: the CMD write is the acceptance of its word, and the turn that follows runs it. -/
theorem acceptThenTurnIsTheCommand : Obligations.AcceptThenTurnIsTheCommand := by
  intro s w i rest hidle hdecode hinputs
  exact ⟨_, step_of_cmdWrite hidle hinputs, step_of_engine_of_decode_ok rfl rfl hdecode⟩

end Sys2Proof

/-! The invariant of a run (10_state.md R23, 20_memory.md R60): what each agent of the block does to memory, the
parameters and the flags, and the step assembled from them; and the registers after reset (R42). -/

namespace Sys2Proof.Machine

variable {s t : State}

/-! ### The flags -/

theorem State.flagsOk_congr (hstatus : t.status = s.status) (herrcode : t.errcode = s.errcode) (h : s.flagsOk) :
    t.flagsOk := by
  rw [State.flagsOk, hstatus, herrcode]
  exact h

theorem State.flagsOk_of_idle (hbusy : s.status.busy = false) (herr : s.status.err = true → s.errcode ≠ .noError)
    (hdegen : s.status.degen = true → s.errcode = .noError ∧ s.status.err = false) : s.flagsOk :=
  ⟨fun hb => absurd (hbusy.symm.trans hb) Bool.false_ne_true, herr, hdegen⟩

theorem State.flagsOk_of_clear (herr : s.status.err = false) (hdegen : s.status.degen = false)
    (hbusy : s.status.busy = true → s.status.done = false ∧ s.errcode = .noError) : s.flagsOk :=
  ⟨fun hb => ⟨(hbusy hb).1, herr, hdegen, (hbusy hb).2⟩, fun he => absurd (herr.symm.trans he) Bool.false_ne_true,
    fun hd => absurd (hdegen.symm.trans hd) Bool.false_ne_true⟩

theorem State.accept_flagsOk (s : State) (w : Word) : (s.accept w).flagsOk :=
  State.flagsOk_of_clear rfl rfl fun _ => ⟨rfl, rfl⟩

/-- A W1C write of STATUS lowers flags only, and leaves BUSY and ERRCODE alone. -/
theorem State.acknowledge_flagsOk (h : s.flagsOk) (v : Word) : (s.acknowledge v).flagsOk := by
  obtain ⟨hbusy, herr, hdegen⟩ := h
  refine ⟨fun hb => ?_, fun he => ?_, fun hd => ?_⟩
  · obtain ⟨h1, h2, h3, h4⟩ := hbusy hb
    simp [h1, h2, h3, h4]
  · exact herr (Bool.and_elim_left he)
  · obtain ⟨h1, h2⟩ := hdegen (Bool.and_elim_left hd)
    simp [h1, h2]

/-- Error entry of a command in flight: DEGEN was 0 while it ran (60_exceptions.md R238). -/
theorem State.enterError_flagsOk (h : s.flagsOk) (hbusy : s.status.busy = true) {e : ErrCode} (he : e ≠ .noError) :
    (s.enterError e).flagsOk := by
  obtain ⟨-, -, hdegen, -⟩ := h.1 hbusy
  exact State.flagsOk_of_idle rfl (fun _ => he) fun hd => absurd (hdegen.symm.trans hd) Bool.false_ne_true

/-- Completion of a command in flight: ERR and ERRCODE were clear while it ran (44_system.md R222). -/
theorem State.perform_flagsOk (h : s.flagsOk) (hbusy : s.status.busy = true) (e : Effect) : (s.perform e).flagsOk := by
  obtain ⟨-, herr, -, herrcode⟩ := h.1 hbusy
  exact State.flagsOk_of_idle rfl (fun he => absurd (herr.symm.trans he) Bool.false_ne_true)
    fun _ => ⟨herrcode, herr⟩

/-! ### A command -/

theorem exec_params {i : Instr} (h : exec i s = .next t) : t.params = s.params := by
  rcases exec_cases h with ⟨code, _, rfl⟩ | ⟨_, rfl⟩
  · rfl
  · rfl

/-- A command whose checks pass writes existing bytes only (60_exceptions.md R235). -/
theorem exec_memBounds {i : Instr} (hbounds : s.memInBounds) (h : exec i s = .next t) :
    ∀ c ∈ t.mem, c.1 < s.params.memBytes := by
  rcases exec_cases h with ⟨code, _, rfl⟩ | ⟨hpass, rfl⟩
  · exact hbounds
  · intro c hc
    rcases Memory.mem_writeAll hc with hold | ⟨d, hd, hdc⟩
    · exact hbounds c hold
    · obtain ⟨e, he, hed⟩ := Effect.resolve_mem_addr hd
      rw [← hdc, ← hed]
      exact written_in_range hpass (effectOf_writes_mem he)

theorem exec_flagsOk {i : Instr} (hflags : s.flagsOk) (hbusy : s.status.busy = true) (h : exec i s = .next t) :
    t.flagsOk := by
  rcases exec_cases h with ⟨code, hcode, rfl⟩ | ⟨_, rfl⟩
  · obtain ⟨c, hc, rfl⟩ := firstError_mem hcode
    exact State.enterError_flagsOk hflags hbusy (checksOf_error_ne hc)
  · exact State.perform_flagsOk hflags hbusy _

/-! ### The two agents and the reset -/

theorem engineTurn_memBounds (hbounds : s.memInBounds) (h : engineTurn s = .next t) :
    ∀ c ∈ t.mem, c.1 < s.params.memBytes := by
  rcases engineTurn_cases s with ⟨_, hturn⟩ | ⟨_, i, _, hturn⟩ | ⟨_, e, _, hturn⟩
  · cases hturn.symm.trans h
    exact hbounds
  · exact exec_memBounds hbounds (hturn.symm.trans h)
  · cases hturn.symm.trans h
    exact hbounds

theorem engineTurn_inv (hinv : s.Inv) (h : engineTurn s = .next t) : t.Inv ∧ t.params = s.params := by
  have hbounds := engineTurn_memBounds hinv.memBounds h
  rcases engineTurn_cases s with ⟨_, hturn⟩ | ⟨hbusy, i, _, hturn⟩ | ⟨hbusy, e, _, hturn⟩
  · cases hturn.symm.trans h
    exact ⟨hinv, rfl⟩
  · have hexec := hturn.symm.trans h
    have hparams := exec_params hexec
    refine ⟨⟨exec_mem_wf hinv.memWf hexec, ?_, exec_flagsOk hinv.flags hbusy hexec, ?_⟩, hparams⟩
    · rw [State.memInBounds, hparams]
      exact hbounds
    · rw [hparams]
      exact hinv.embossDiv
  · cases hturn.symm.trans h
    exact ⟨⟨hinv.memWf, hinv.memBounds, State.enterError_flagsOk hinv.flags hbusy (by decide), hinv.embossDiv⟩, rfl⟩

theorem finalMem_memBounds (hbounds : s.memInBounds) : ∀ c ∈ s.finalMem, c.1 < s.params.memBytes := by
  unfold State.finalMem
  split
  next t hturn => exact engineTurn_memBounds hbounds hturn
  next => exact hbounds

/-- A register write, CMD's included, leaves data memory and the parameters alone. -/
theorem regWrite_mem_params (s : State) (r : Reg) (v : Word) :
    (s.regWrite r v).mem = s.mem ∧ (s.regWrite r v).params = s.params := by
  unfold State.regWrite
  split_ifs
  · cases r <;> exact ⟨rfl, rfl⟩
  · cases r <;> exact ⟨rfl, rfl⟩

/-- Of the registers only STATUS and CMD reach the flags, and a dropped write sets BWERR. -/
theorem regWrite_flagsOk (h : s.flagsOk) (r : Reg) (v : Word) : (s.regWrite r v).flagsOk := by
  unfold State.regWrite
  split_ifs
  · cases r
    case status => exact State.acknowledge_flagsOk h v
    all_goals exact h
  · cases r
    case status => exact State.acknowledge_flagsOk h v
    case cmd => exact s.accept_flagsOk v
    all_goals exact h

theorem regWrite_inv (h : s.Inv) (r : Reg) (v : Word) :
    (s.regWrite r v).Inv ∧ (s.regWrite r v).params = s.params := by
  obtain ⟨hmem, hparams⟩ := regWrite_mem_params s r v
  refine ⟨⟨?_, ?_, regWrite_flagsOk h.flags r v, ?_⟩, hparams⟩
  · rw [hmem]
    exact h.memWf
  · rw [State.memInBounds, hmem, hparams]
    exact h.memBounds
  · rw [hparams]
    exact h.embossDiv

theorem hostLoad_inv (h : s.Inv) (a : Nat) : (s.hostLoad a).Inv := by
  refine ⟨?_, ?_, State.flagsOk_congr (s.hostLoad_status a) (s.hostLoad_errcode a) h.flags, ?_⟩
  · rw [State.hostLoad_mem]
    exact h.memWf
  · rw [State.memInBounds, State.hostLoad_mem, State.hostLoad_params]
    exact h.memBounds
  · rw [State.hostLoad_params]
    exact h.embossDiv

theorem hostStore_inv (h : s.Inv) {a : Nat} (ha : a < s.params.memBytes) (v : Byte) : (s.hostStore a v).Inv := by
  refine ⟨Memory.wf_write h.memWf a v, fun c hc => ?_, h.flags, h.embossDiv⟩
  rcases Memory.mem_write hc with hold | hnew
  · exact h.memBounds c hold
  · rw [hnew]
    exact ha

/-- Whatever a half-done command left, memory after a reset is canonical. -/
theorem memAfterReset_wf (h : s.mem.wf = true) : s.memAfterReset.wf = true := by
  unfold State.memAfterReset
  split_ifs
  · exact Memory.wf_writeAll h _
  · exact h

theorem memAfterReset_memBounds (hbounds : s.memInBounds) : ∀ c ∈ s.memAfterReset, c.1 < s.params.memBytes := by
  unfold State.memAfterReset
  split_ifs
  · intro c hc
    rcases mem_mix_mem hc with ⟨v, hold⟩ | ⟨v, hnew⟩
    · exact hbounds (c.1, v) hold
    · exact finalMem_memBounds hbounds (c.1, v) hnew
  · exact hbounds

theorem pulseReset_inv (h : s.Inv) : s.pulseReset.Inv :=
  ⟨memAfterReset_wf h.memWf, memAfterReset_memBounds h.memBounds,
    State.flagsOk_of_clear rfl rfl fun hb => absurd hb Bool.false_ne_true, h.embossDiv⟩

/-! ### One input of the machine -/

theorem perform_inv {e : Input} (h : s.Inv) (hnext : perform e s = .next t) : t.Inv ∧ t.params = s.params := by
  cases e with
  | regRead index =>
    cases hnext
    exact ⟨⟨h.memWf, h.memBounds, h.flags, h.embossDiv⟩, rfl⟩
  | regWrite index v =>
    cases hnext
    exact regWrite_inv h _ v
  | memRead a =>
    simp only [perform] at hnext
    split_ifs at hnext
    cases hnext
    exact ⟨hostLoad_inv h a, s.hostLoad_params a⟩
  | memWrite a v =>
    simp only [perform] at hnext
    split_ifs at hnext with ha
    cases hnext
    exact ⟨hostStore_inv h (of_decide_eq_true ha) v, rfl⟩
  | engine => exact engineTurn_inv h hnext
  | reset =>
    cases hnext
    exact ⟨pulseReset_inv h, rfl⟩

/-! ### The registers after reset -/

/-- What a register reads after reset (10_state.md R42). -/
theorem reset_regValue {r : Reg} (hr : r.isTable = false) :
    State.reset.regValue r = if r = .id then 0x49504501#32 else if r = .kdiv then 1#32 else 0#32 := by
  cases r
  case hist => cases hr
  case map => cases hr
  case kn k => simp [State.regValue, State.reset]
  all_goals rfl

end Sys2Proof.Machine

namespace Sys2Proof

open Machine

/-- Settles O10: a step is the engine's turn or one input on the state without it, and each keeps the invariant. -/
theorem stepKeepsTheInvariant : Obligations.StepKeepsTheInvariant := by
  intro s t hinv hstep
  cases hinputs : s.inputs with
  | nil => exact engineTurn_inv hinv ((step_of_idle_inputs hinputs).symm.trans hstep)
  | cons e rest =>
    have hinv' : State.Inv { s with inputs := rest } := ⟨hinv.memWf, hinv.memBounds, hinv.flags, hinv.embossDiv⟩
    exact perform_inv (s := { s with inputs := rest }) hinv' ((step_of_input hinputs).symm.trans hstep)

/-- Settles O11: no byte is listed and no flag is set. -/
theorem resetMeetsTheInvariant : Obligations.ResetMeetsTheInvariant :=
  ⟨rfl, fun c hc => absurd hc List.not_mem_nil,
    State.flagsOk_of_clear rfl rfl fun hb => absurd hb Bool.false_ne_true, by decide⟩

/-- Settles O12: the registers one by one; IE is 0, so irq is low. -/
theorem resetRegisters : Obligations.ResetRegisters := ⟨fun _ hr => reset_regValue hr, rfl⟩

end Sys2Proof

/-! The check phase of every command (60_exceptions.md R230 to R238): the meaning of each check, and what a command
answers as the chain of its checks in their order. -/

namespace Sys2Proof.Machine

variable {s : State}

/-! ### A chain of checks -/

theorem runCommand_nil (s : State) (e : Effect) : runCommand s [] e = .next (s.perform e) := rfl

/-- The first check of a chain decides, or leaves the decision to the rest (60_exceptions.md R237). -/
theorem runCommand_cons {c : Check} {cs : List Check} {e : Effect} {o : Host.Outcome State Fault Refusal} {P : Prop}
    [Decidable P] (hfails : c.fails = true ↔ P) (hrest : runCommand s cs e = o) :
    runCommand s (c :: cs) e = if P then .next (failedWith s c.error) else o := by
  by_cases hP : P
  · rw [if_pos hP, runCommand, firstError, if_pos (hfails.mpr hP)]
    rfl
  · rw [if_neg hP, ← hrest, runCommand, firstError, if_neg (mt hfails.mp hP), runCommand]

/-! ### Each check -/

theorem checkDepth_fails_iff (s : State) : s.checkDepth.fails = true ↔ ¬ s.depthOk = true := by
  simp [State.checkDepth]

theorem checkDepth24_fails_iff (s : State) : s.checkDepth24.fails = true ↔ s.bpp ≠ 24#6 := by
  simp [State.checkDepth24]

theorem checkTrunc_fails_iff (s : State) : s.checkTrunc.fails = true ↔ s.len.toNat < s.diskBytes := by
  simp [State.checkTrunc]

theorem checkAddr_fails_iff (s : State) (r : Region) : (s.checkAddr r).fails = true ↔ ¬ s.inRange r = true := by
  simp [State.checkAddr]

theorem checkAddr2_fails_iff (s : State) (a b : Region) :
    (s.checkAddr2 a b).fails = true ↔ ¬ (s.inRange a = true ∧ s.inRange b = true) := by
  simp [State.checkAddr2, -not_and, not_and_or]

theorem checkAlias_fails_iff (a b : Region) : (checkAlias a b).fails = true ↔ a.overlaps b = true := Iff.rfl

theorem checkPreset_fails_iff (s : State) (n : Nat) : (s.checkPreset n).fails = true ↔ s.w < n ∨ s.h < n := by
  simp [State.checkPreset, State.smallerThan]

/-- An even size is neither 3 nor 5, so R146's test for odd sizes adds nothing. -/
theorem checkKernel_fails_iff (s : State) (n : Nat) :
    (s.checkKernel n).fails = true ↔ (n ≠ 3 ∧ n ≠ 5) ∨ s.kdiv = 0#16 ∨ s.w < n ∨ s.h < n := by
  have hsize : n % 2 = 0 ∨ n ≠ 3 ∧ n ≠ 5 ↔ n ≠ 3 ∧ n ≠ 5 := by omega
  simp only [State.checkKernel, State.smallerThan, Bool.or_eq_true, Bool.and_eq_true, decide_eq_true_eq,
    beq_iff_eq, hsize, or_assoc]

/-! ### The chains -/

theorem exec_in_place_chain {i : Instr} (hi : checksOf i s = inPlaceChecks s) : exec i s = (
    if ¬ s.depthOk = true then .next (failedWith s .eDepth)
    else if ¬ s.inRange s.srcStore = true then .next (failedWith s .eAddr)
    else .next (s.perform (effectOf i s))) := by
  rw [exec_eq_runCommand, hi]
  exact runCommand_cons (checkDepth_fails_iff s) <| runCommand_cons (checkAddr_fails_iff s _) <| runCommand_nil s _

/-- The checks every two-region command ends with (60_exceptions.md R235, R236). -/
theorem runCommand_two_regions (a b : Region) (e : Effect) :
    runCommand s [s.checkAddr2 a b, checkAlias a b] e = (
      if ¬ (s.inRange a = true ∧ s.inRange b = true) then .next (failedWith s .eAddr)
      else if a.overlaps b = true then .next (failedWith s .eAlias)
      else .next (s.perform e)) :=
  runCommand_cons (checkAddr2_fails_iff s a b) <| runCommand_cons (checkAlias_fails_iff a b) <| runCommand_nil s e

theorem exec_preset_chain {i : Instr} {n : Nat} (hi : checksOf i s = presetChecks n s) : exec i s = (
    if ¬ s.depthOk = true then .next (failedWith s .eDepth)
    else if s.w < n ∨ s.h < n then .next (failedWith s .eKernel)
    else if ¬ (s.inRange s.srcStore = true ∧ s.inRange s.dstStore = true) then .next (failedWith s .eAddr)
    else if s.srcStore.overlaps s.dstStore = true then .next (failedWith s .eAlias)
    else .next (s.perform (effectOf i s))) := by
  rw [exec_eq_runCommand, hi]
  exact runCommand_cons (checkDepth_fails_iff s) <| runCommand_cons (checkPreset_fails_iff s n) <|
    runCommand_two_regions _ _ _

/-- Each preset has the checks of its own size (41_convolution.md R150). -/
theorem checksOf_preset {i : Instr} {n : Nat} (h : (i, n) ∈ ([(.convBox3, 3), (.convGauss3, 3), (.convGauss5, 5),
    (.convEdge, 3), (.convEmboss, 3), (.convSharp, 3)] : List (Instr × Nat))) (s : State) :
    checksOf i s = presetChecks n s := by
  simp only [List.mem_cons, Prod.mk.injEq, List.not_mem_nil, or_false] at h
  rcases h with ⟨rfl, rfl⟩ | ⟨rfl, rfl⟩ | ⟨rfl, rfl⟩ | ⟨rfl, rfl⟩ | ⟨rfl, rfl⟩ | ⟨rfl, rfl⟩ <;> rfl

theorem checksOf_in_place {i : Instr} (h : i ∈ ([.hist, .remap, .equalize] : List Instr)) (s : State) :
    checksOf i s = inPlaceChecks s := by
  simp only [List.mem_cons, List.not_mem_nil, or_false] at h
  rcases h with rfl | rfl | rfl <;> rfl

end Sys2Proof.Machine

namespace Sys2Proof

open Machine

/-- Settles O42: the chain of each command's checks, in the order of its check phase. -/
theorem scanlineErrorPriority : Obligations.ScanlineErrorPriority := by
  refine fun s => ⟨(exec_eq_runCommand .scanIn s).trans ?_, (exec_eq_runCommand .scanOut s).trans ?_⟩
  · exact runCommand_cons (checkDepth_fails_iff s) <| runCommand_cons (checkTrunc_fails_iff s) <|
      runCommand_two_regions _ _ _
  · exact runCommand_cons (checkDepth_fails_iff s) <| runCommand_two_regions _ _ _

/-- Settles O43: CONV.K's chain with its own kernel test; the presets share one chain, each at its size. -/
theorem convolutionErrorPriority : Obligations.ConvolutionErrorPriority := by
  refine fun s => ⟨fun n => (exec_eq_runCommand (.convK n) s).trans ?_, fun i n h => ?_⟩
  · exact runCommand_cons (checkDepth_fails_iff s) <| runCommand_cons (checkKernel_fails_iff s n) <|
      runCommand_two_regions _ _ _
  · exact exec_preset_chain (checksOf_preset h s)

/-- Settles O44: the in-place commands share one chain, and the colour commands test for 24 bits, then their regions. -/
theorem histogramAndColourErrorPriority : Obligations.HistogramAndColourErrorPriority := by
  refine fun s => ⟨fun i h => exec_in_place_chain (checksOf_in_place h s), (exec_eq_runCommand .rgb2yuv s).trans ?_,
    (exec_eq_runCommand .yuv2rgb s).trans ?_⟩
  · exact runCommand_cons (checkDepth24_fails_iff s) <| runCommand_two_regions _ _ _
  · exact runCommand_cons (checkDepth24_fails_iff s) <| runCommand_two_regions _ _ _

/-- Settles O45: overlapping regions share the higher of their two bases. -/
theorem rangeAndOverlapChecks : Obligations.RangeAndOverlapChecks := by
  refine ⟨State.inRange_iff, fun a b => ?_⟩
  simp only [Region.overlaps_iff, Region.contains_iff]
  constructor
  · intro h
    exact ⟨max a.base b.base, by omega⟩
  · rintro ⟨x, hx⟩
    omega

/-- Settles O46: an operation leaves ERR as it was, so a command that ends with ERR = 1 took the error entry, with the
code of one of its checks. -/
theorem failedCommandIsAtomic : Obligations.FailedCommandIsAtomic := by
  intro i s t herr hexec ht
  rcases exec_cases hexec with ⟨code, hcode, rfl⟩ | ⟨_, rfl⟩
  · obtain ⟨c, hc, rfl⟩ := firstError_mem hcode
    exact ⟨checksOf_error_ne hc, enterError_eq_failedWith s c.error⟩
  · exact absurd (herr.symm.trans ht) Bool.false_ne_true

end Sys2Proof

/-! What a command changes and what it leaves (10_state.md R39, R43), with the ownership hazard kept or broken
(70_reset_and_hazards.md R270). -/

namespace Sys2Proof.Machine

variable {s : State}

/-! ### Tables and memory -/

theorem effectOf_hist_eq_none {i : Instr} (hhist : i ≠ .hist) (heq : i ≠ .equalize) (s : State) :
    (effectOf i s).hist = none := by
  cases i
  case hist => exact absurd rfl hhist
  case equalize => exact absurd rfl heq
  all_goals rfl

theorem effectOf_map_eq_none {i : Instr} (hmap : i ≠ .eqmap) (heq : i ≠ .equalize) (s : State) :
    (effectOf i s).map = none := by
  cases i
  case eqmap => exact absurd rfl hmap
  case equalize => exact absurd rfl heq
  all_goals rfl

theorem State.perform_hist_of_none {e : Effect} (h : e.hist = none) : (s.perform e).hist = s.hist := by
  simp [State.perform, resolve_hist_none h]

theorem State.perform_map_of_none {e : Effect} (h : e.map = none) : (s.perform e).map = s.map := by
  simp [State.perform, resolve_map_none h]

/-- Memory outside the written region, whatever the host did (20_memory.md R71). -/
theorem exec_read_outside {i : Instr} {t : State} (hwf : s.mem.wf = true) (h : exec i s = .next t) {a : Nat}
    (ha : (writtenRegion i s).contains a = false) : t.mem.read a = s.mem.read a := by
  rcases exec_cases h with ⟨code, _, rfl⟩ | ⟨_, rfl⟩
  · rfl
  · refine State.perform_read_other hwf fun c hc hca => ?_
    have hmem := effectOf_writes_mem hc
    rw [hca, ha] at hmem
    cases hmem

/-! ### STATUS and ERRCODE -/

/-- STATUS and ERRCODE after a command are settled by its checks and its fallback flag (44_system.md R222). -/
theorem exec_status_congr {i : Instr} {s' t u : State} (hchecks : checksOf i s' = checksOf i s)
    (hfallback : (effectOf i s').fallback = (effectOf i s).fallback) (hstatus : s'.status = s.status)
    (herrcode : s'.errcode = s.errcode) (ht : exec i s = .next t) (hu : exec i s' = .next u) :
    t.status = u.status ∧ t.errcode = u.errcode := by
  cases hfirst : firstError (checksOf i s) with
  | some code =>
    cases (exec_of_firstError hfirst).symm.trans ht
    cases (exec_of_firstError (hchecks ▸ hfirst)).symm.trans hu
    simp [hstatus]
  | none =>
    have hpass : checksPass i s := (firstError_eq_none_iff _).mp hfirst
    have hpass' : checksPass i s' := (firstError_eq_none_iff _).mp (hchecks ▸ hfirst)
    cases (exec_of_checksPass hpass).symm.trans ht
    cases (exec_of_checksPass hpass').symm.trans hu
    simp [State.perform, hstatus, herrcode, hfallback]

/-- No check reads memory or the record of the host's writes. -/
theorem checksOf_with_mem (i : Instr) (s : State) (l : List Host.Cell) (m : Memory) :
    checksOf i { s with touched := l, mem := m } = checksOf i s := by
  cases i <;> rfl

/-- The fallback flag is that of the source as it was at acceptance (log entry 8). -/
theorem effectOf_fallback_atAcceptance (i : Instr) (s : State) :
    (effectOf i { s with touched := [], mem := s.memAtAcceptance (sourceRegion i s) }).fallback =
      (effectOf i s).fallback := by
  rw [effectOf_fallback, effectOf_fallback]
  cases i
  case equalize => exact equalizeFallback_atAcceptance s
  all_goals rfl

/-! ### A broken destination hazard -/

/-- Where the host left the destination alone too, choosing between its bytes and the engine's chooses nothing. -/
theorem Effect.hostOrEngine_of_dest_untouched {e : Effect} (h : e.destTouched s = false) : e.hostOrEngine s = e := by
  have hkept : ∀ c ∈ e.writes, s.hostWrote c.1 = false := by simpa [Effect.destTouched] using h
  have hwrites : (e.hostOrEngine s).writes = e.writes := by
    simp only [Effect.hostOrEngine]
    conv_rhs => rw [← List.map_id e.writes]
    exact List.map_congr_left fun c hc => by simp [hkept c hc]
  rw [Effect.hostOrEngine] at hwrites ⊢
  simp only at hwrites
  rw [hwrites]

theorem Effect.resolve_of_source_untouched {e : Effect} (h : e.sourceTouched s = false) :
    e.resolve s = e.hostOrEngine s := by
  rw [Effect.resolve, if_neg (by simp [h])]
  split_ifs with hdest
  · rfl
  · exact (Effect.hostOrEngine_of_dest_untouched (Bool.eq_false_iff.mpr hdest)).symm

/-- A record that is empty disturbs no effect. -/
theorem Effect.disturbed_of_touched_nil {e : Effect} (h : s.touched = []) : e.disturbed s = false := by
  simp [Effect.disturbed, Effect.sourceTouched, Effect.destTouched, State.hostWrote, h]

/-- Replacing each written value by a function of its address and itself: an address then reads as that function of what
it would have read, or nothing writes it. -/
theorem Memory.read_writeAll_map {m : Memory} (hwf : m.wf = true) (f : Nat → Byte → Byte) (cells : List Host.Cell)
    (a : Nat) :
    (m.writeAll (cells.map fun c => (c.1, f c.1 c.2))).read a = f a ((m.writeAll cells).read a) ∨
      ((m.writeAll (cells.map fun c => (c.1, f c.1 c.2))).read a = m.read a ∧
        (m.writeAll cells).read a = m.read a) := by
  induction cells using List.reverseRecOn with
  | nil => exact .inr ⟨rfl, rfl⟩
  | append_singleton cs c ih =>
    rw [List.map_append, Memory.writeAll_append, Memory.writeAll_append]
    simp only [List.map_cons, List.map_nil, Memory.writeAll_cons, Memory.writeAll_nil,
      Memory.read_write (Memory.wf_writeAll hwf _)]
    by_cases ha : a = c.1
    · left
      simp [ha]
    · simpa [ha] using ih

/-- The bytes of a command whose source the host left alone, against those of the undisturbed run
(93_implementation_defined.md U4). -/
theorem hostOrEngine_read (hwf : s.mem.wf = true) (e : Effect) (a : Nat) :
    (s.hostWrote a = true →
      (s.mem.writeAll (e.hostOrEngine s).writes).read a = s.mem.read a ∨
        (s.mem.writeAll (e.hostOrEngine s).writes).read a = (s.mem.writeAll e.writes).read a) ∧
    (s.hostWrote a = false →
      (s.mem.writeAll (e.hostOrEngine s).writes).read a = (s.mem.writeAll e.writes).read a) := by
  have hread := Memory.read_writeAll_map hwf
    (fun b v => if s.hostWrote b then eitherByte s.draws b (s.mem.read b) v else v) e.writes a
  rcases hread with hchosen | ⟨hleft, hright⟩
  · refine ⟨fun hwrote => ?_, fun hkept => ?_⟩
    · rw [if_pos hwrote] at hchosen
      rw [Effect.hostOrEngine, hchosen]
      exact eitherByte_cases _ _ _ _
    · rw [if_neg (by simp [hkept])] at hchosen
      exact hchosen
  · exact ⟨fun _ => .inl hleft, fun _ => hleft.trans hright.symm⟩

theorem equalizeFallback_of_source_untouched (h : ∀ c ∈ s.touched, s.srcStore.contains c.1 = false) :
    s.equalizeFallback = degenerate s.histogram := by
  rw [State.equalizeFallback, State.memAtAcceptance_of_untouched h]

/-- The host's record enters a command's effect through EQ's flag alone, which a host that left the source alone does
not change. -/
theorem effectOf_without_record {i : Instr} (h : ∀ c ∈ s.touched, (sourceRegion i s).contains c.1 = false) :
    effectOf i { s with touched := [] } = effectOf i s := by
  cases i
  case equalize =>
    have hflag : State.equalizeFallback { s with touched := [] } = s.equalizeFallback :=
      (equalizeFallback_of_source_untouched fun c hc => absurd hc List.not_mem_nil).trans
        (equalizeFallback_of_source_untouched h).symm
    rw [effectOf, hflag]
    rfl
  all_goals rfl

end Sys2Proof.Machine

namespace Sys2Proof

open Machine

/-- Settles O47: error entry and an operation are updates of other fields. -/
theorem commandsKeepTheOperands : Obligations.CommandsKeepTheOperands := by
  intro i s t hexec
  rcases exec_cases hexec with ⟨code, _, rfl⟩ | ⟨_, rfl⟩ <;>
    exact ⟨rfl, rfl, rfl, rfl, rfl, rfl, rfl, rfl, rfl, rfl, rfl, rfl, rfl⟩

/-- Settles O48: a failed command changes none of it; an operation writes addresses of its region and the tables of its
effect, whatever the host did; the flags are those of the run on the source as it was at acceptance. -/
theorem commandsWriteOnlyWhatTheyOwn : Obligations.CommandsWriteOnlyWhatTheyOwn := by
  intro i s t hwf hexec
  have hflags (u : State)
      (hu : exec i { s with touched := [], mem := s.memAtAcceptance (sourceRegion i s) } = .next u) :
      t.status = u.status ∧ t.errcode = u.errcode :=
    exec_status_congr (checksOf_with_mem i s _ _) (effectOf_fallback_atAcceptance i s) rfl rfl hexec hu
  have hmem (a : Nat) (ha : (writtenRegion i s).contains a = false) : t.mem.read a = s.mem.read a :=
    exec_read_outside hwf hexec ha
  rcases exec_cases hexec with ⟨code, _, rfl⟩ | ⟨_, rfl⟩
  · exact ⟨hmem, fun _ _ => rfl, fun _ _ => rfl, hflags⟩
  · exact ⟨hmem, fun h1 h2 => State.perform_hist_of_none (effectOf_hist_eq_none h1 h2 s),
      fun h1 h2 => State.perform_map_of_none (effectOf_map_eq_none h1 h2 s), hflags⟩

/-- Settles O60: with the source left alone the two runs have one effect; its bytes are chosen between the host's and
the engine's where the host wrote, and its tables and flags are the same. -/
theorem brokenDestinationHazardIsConfined : Obligations.BrokenDestinationHazardIsConfined := by
  intro i s t u hwf hpass hsource ht hu
  have hpass' : checksPass i { s with touched := [] } := by
    rw [checksPass, checksOf_with_mem i s [] s.mem]
    exact hpass
  have heffect := effectOf_without_record hsource
  have huntouched : (effectOf i s).sourceTouched s = false := by
    simpa [Effect.sourceTouched, effectOf_source] using hsource
  cases (exec_of_checksPass hpass).symm.trans ht
  have hu' := (exec_of_checksPass hpass').symm.trans hu
  rw [heffect, State.perform_of_undisturbed (Effect.disturbed_of_touched_nil rfl)] at hu'
  cases hu'
  have hresolve := Effect.resolve_of_source_untouched huntouched
  refine ⟨fun a => ?bytes, ?rest⟩
  case bytes =>
    simp only [State.perform, State.complete_mem, State.apply_mem, hresolve]
    exact hostOrEngine_read hwf (effectOf i s) a
  case rest =>
    rw [State.perform, State.apply, hresolve]
    rfl

end Sys2Proof

/-! The register port (10_state.md R21 to R41, 44_system.md R224 to R227): the map by offset, writes while idle and
while busy, reads, and what a read gives after a write. -/

namespace Sys2Proof.Machine

variable {s : State}

/-! ### The register map -/

/-- From index 12 on the map is its three tables and reserved offsets (10_state.md R40). -/
theorem regAtIndex_of_ge {i : Nat} (h : 12 ≤ i) : regAtIndex i =
    if hk : 16 ≤ i ∧ i - 16 < 25 then .kn ⟨i - 16, hk.2⟩
    else if hh : 256 ≤ i ∧ i - 256 < 256 then .hist ⟨i - 256, hh.2⟩
    else if hm : 512 ≤ i ∧ i - 512 < 256 then .map ⟨i - 512, hm.2⟩
    else .reserved := by
  unfold regAtIndex
  split
  case h_13 => rfl
  all_goals omega

theorem regAtIndex_kn (k : Fin 25) : regAtIndex (16 + k) = .kn k := by
  rw [regAtIndex_of_ge (by omega), dif_pos (by omega)]
  exact congrArg Reg.kn (Fin.ext (Nat.add_sub_cancel_left ..))

theorem regAtIndex_hist (k : Fin 256) : regAtIndex (256 + k) = .hist k := by
  rw [regAtIndex_of_ge (by omega), dif_neg (by omega), dif_pos (by omega)]
  exact congrArg Reg.hist (Fin.ext (Nat.add_sub_cancel_left ..))

theorem regAtIndex_map (k : Fin 256) : regAtIndex (512 + k) = .map k := by
  rw [regAtIndex_of_ge (by omega), dif_neg (by omega), dif_neg (by omega), dif_pos (by omega)]
  exact congrArg Reg.map (Fin.ext (Nat.add_sub_cancel_left ..))

theorem regAtIndex_reserved {i : Nat} (h : (12 ≤ i ∧ i < 16) ∨ (41 ≤ i ∧ i < 256) ∨ 768 ≤ i) :
    regAtIndex i = .reserved := by
  rw [regAtIndex_of_ge (by omega), dif_neg (by omega), dif_neg (by omega), dif_neg (by omega)]

theorem regAt_of_toNat_eq {index : BitVec 10} {i : Nat} (h : index.toNat = i) : regAt index = regAtIndex i := by
  rw [regAt, h]

/-! ### Writes -/

theorem regWrite_of_idle (hidle : s.status.busy = false) (r : Reg) (v : Word) :
    s.regWrite r v = s.regWriteIdle r v := by simp [State.regWrite, hidle]

theorem regWrite_of_busy (hbusy : s.status.busy = true) (r : Reg) (v : Word) :
    s.regWrite r v = s.regWriteBusy r v := by simp [State.regWrite, hbusy]

theorem regWriteBusy_eq (s : State) (r : Reg) (v : Word) : s.regWriteBusy r v =
    if r = .ctrl then { s with ie := v.getLsbD 0 }
    else if r = .status then s.acknowledge v
    else if r = .reserved then s
    else { s with status := s.status.busyWrite } := by
  cases r <;> rfl

/-- A write to one register, CMD apart, changes what no other register holds: a scalar register is a field of its own,
and a table entry is told from its neighbours by its index. Of the pairs of scalar registers each is either of two
different fields or of one register with itself, which the hypothesis excludes. -/
theorem regValue_regWriteIdle_of_ne {r q : Reg} (hr : r ≠ .cmd) (hq : q ≠ r) (v : Word) :
    (s.regWriteIdle r v).regValue q = s.regValue q := by
  cases r
  case cmd => exact absurd rfl hr
  case kn k =>
    cases q
    case kn j =>
      have hne : (k : Nat) ≠ j := fun h => hq (congrArg Reg.kn (Fin.ext h.symm))
      simp [State.regWriteIdle, State.regValue, Vector.getElem_set_ne, hne]
    all_goals rfl
  case hist k =>
    cases q
    case hist j =>
      have hne : (k : Nat) ≠ j := fun h => hq (congrArg Reg.hist (Fin.ext h.symm))
      simp [State.regWriteIdle, State.regValue, Vector.getElem_set_ne, hne]
    all_goals rfl
  case map k =>
    cases q
    case map j =>
      have hne : (k : Nat) ≠ j := fun h => hq (congrArg Reg.map (Fin.ext h.symm))
      simp [State.regWriteIdle, State.regValue, Vector.getElem_set_ne, hne]
    all_goals rfl
  all_goals cases q <;> first | rfl | exact absurd rfl hq

/-! ### Fields of a word as masks -/

theorem zeroExtend_low_half (v : Word) : (v.extractLsb' 0 16).zeroExtend 32 = v &&& 0xFFFF#32 := by
  refine BitVec.eq_of_toNat_eq ?_
  have hmask : v.toNat &&& 65535 = v.toNat % 65536 := Nat.and_two_pow_sub_one_eq_mod v.toNat 16
  simp [hmask]
  omega

theorem zeroExtend_low_byte (v : Word) : (v.extractLsb' 0 8).zeroExtend 32 = v &&& 0xFF#32 := by
  refine BitVec.eq_of_toNat_eq ?_
  have hmask : v.toNat &&& 255 = v.toNat % 256 := Nat.and_two_pow_sub_one_eq_mod v.toNat 8
  simp [hmask]
  omega

theorem ofNat_bit_zero (v : Word) : BitVec.ofNat 32 (v.getLsbD 0).toNat = v &&& 1#32 := by
  refine BitVec.eq_of_getLsbD_eq fun i hi => ?_
  cases i with
  | zero => cases hbit : v.getLsbD 0 <;> simpa using hbit
  | succ i => cases hbit : v.getLsbD 0 <;> simp [BitVec.getLsbD_one]

/-- FMT as its two fields side by side (10_state.md R30). -/
theorem fmt_fields (b : BitVec 6) (d : Bool) :
    BitVec.ofNat 32 (b.toNat + 256 * d.toNat) = b.zeroExtend 32 ||| (BitVec.ofBool d).zeroExtend 32 <<< 8 := by
  have fields : ∀ (b : BitVec 6) (d : Bool),
      BitVec.ofNat 32 (b.toNat + 256 * d.toNat) = b.zeroExtend 32 ||| (BitVec.ofBool d).zeroExtend 32 <<< 8 := by
    decide
  exact fields b d

theorem fmt_mask (v : Word) :
    BitVec.ofNat 32 ((v.extractLsb' 0 6).toNat + 256 * (v.getLsbD 8).toNat) = v &&& 0x13F#32 := by
  rw [fmt_fields]
  refine BitVec.eq_of_getLsbD_eq fun i hi => ?_
  interval_cases i <;> simp

/-! ### Reads -/

/-- Only the two tables read otherwise than they hold, and only while BUSY = 1 (93_implementation_defined.md U3). -/
theorem readValue_of_not_table {r : Reg} (hr : r.isTable = false) : s.readValue r = s.regValue r := by
  unfold State.readValue
  cases s.status.busy
  · rfl
  · cases r
    case hist => cases hr
    case map => cases hr
    all_goals rfl

/-- A read of MAP is a byte, whether the table's or a free one. -/
theorem readValue_map_eq_byte (s : State) (k : Fin 256) : ∃ b : Byte, s.readValue (.map k) = b.zeroExtend 32 := by
  unfold State.readValue
  cases s.status.busy
  · exact ⟨_, rfl⟩
  · exact ⟨_, rfl⟩

theorem extractLsb'_zeroExtend_byte (b : Byte) : (b.zeroExtend 32).extractLsb' 8 24 = 0#24 := by
  refine BitVec.eq_of_toNat_eq ?_
  have hlt := b.isLt
  simp [Nat.shiftRight_eq_div_pow]
  omega

theorem Status.toWord_toNat (f : Status) :
    f.toWord.toNat = f.busy.toNat + 2 * f.done.toNat + 4 * f.err.toNat + 8 * f.degen.toNat + 16 * f.bwerr.toNat := by
  have h1 := f.busy.toNat_le
  have h2 := f.done.toNat_le
  have h3 := f.err.toNat_le
  have h4 := f.degen.toNat_le
  have h5 := f.bwerr.toNat_le
  rw [Status.toWord, BitVec.toNat_ofNat]
  omega

theorem fmtWord_toNat (s : State) : s.fmtWord.toNat = s.bpp.toNat + 256 * s.td.toNat := by
  have h1 := s.bpp.isLt
  have h2 := s.td.toNat_le
  rw [State.fmtWord, BitVec.toNat_ofNat]
  omega

/-- A register read is a step; it returns the register's word and draws a free value for a busy table only. -/
theorem step_of_regRead {index : BitVec 10} {rest : List Input} (hinputs : s.inputs = .regRead index :: rest) :
    step s = .next { s with
      regRdata := s.readValue (regAt index)
      draws := if s.status.busy && (regAt index).isTable then s.draws + 1 else s.draws
      inputs := rest } := step_of_input hinputs

end Sys2Proof.Machine

namespace Sys2Proof

open Machine

/-- Settles O51: a register write is its own step; the map is read off at the index a quarter of the offset. -/
theorem registerMapByOffset : Obligations.RegisterMapByOffset := by
  refine ⟨fun s index v rest hinputs => step_of_input hinputs, fun index => ?_⟩
  have hindex := index.isLt
  refine ⟨fun row hrow hoff => ?scalar, fun k hoff => ?kn, fun k hoff => ?hist, fun k hoff => ?map,
    fun hoff => ?reserved⟩
  case scalar =>
    have rows : ∀ row ∈ [(0x000, Reg.id), (0x004, .ctrl), (0x008, .status), (0x00C, .errcode), (0x010, .cmd),
        (0x014, .src), (0x018, .dst), (0x01C, .width), (0x020, .height), (0x024, .fmt), (0x028, .len), (0x02C, .kdiv)],
        regAtIndex (row.1 / 4) = row.2 := by decide
    rw [regAt_of_toNat_eq (by omega : index.toNat = row.1 / 4), rows row hrow]
  case kn => rw [regAt_of_toNat_eq (by omega : index.toNat = 16 + k), regAtIndex_kn]
  case hist => rw [regAt_of_toNat_eq (by omega : index.toNat = 256 + k), regAtIndex_hist]
  case map => rw [regAt_of_toNat_eq (by omega : index.toNat = 512 + k), regAtIndex_map]
  case reserved => exact regAtIndex_reserved (by omega)

/-- Settles O52: an idle block takes the write as `regWriteIdle` has it, register by register. -/
theorem idleRegisterWrites : Obligations.IdleRegisterWrites := by
  intro s v hidle
  have hwrite := regWrite_of_idle hidle
  have hreadOnly : ∀ r ∈ [Reg.id, .errcode, .reserved], s.regWrite r v = s := by
    intro r hr
    simp only [List.mem_cons, List.not_mem_nil, or_false] at hr
    rcases hr with rfl | rfl | rfl <;> exact hwrite _ v
  exact ⟨hreadOnly, hwrite .ctrl v, hwrite .status v, hwrite .src v, hwrite .dst v, hwrite .len v, hwrite .width v,
    hwrite .height v, hwrite .fmt v, hwrite .kdiv v, fun k => hwrite (.kn k) v, fun k => hwrite (.hist k) v,
    fun k => hwrite (.map k) v⟩

/-- Settles O53: a busy block takes the write as the chain of exemptions has it. -/
theorem busyRegisterWrites : Obligations.BusyRegisterWrites :=
  fun s r v hbusy => (regWrite_of_busy hbusy r v).trans (regWriteBusy_eq s r v)

/-- Settles O54: after an idle write the block is idle, so a read gives what the register holds: the field written,
masked as it is stored; a CMD write is the acceptance of its word. -/
theorem registerReadBack : Obligations.RegisterReadBack := by
  intro s r v hidle
  have hcmd : (s.regWrite .cmd v).readValue .cmd = v := by
    rw [readValue_of_not_table rfl, State.regWrite_cmd_of_idle hidle]
    rfl
  have hread (hr : r ≠ .cmd) (q : Reg) : (s.regWrite r v).readValue q = (s.regWriteIdle r v).regValue q := by
    rw [readValue_idle (regWrite_busy hidle hr), regWrite_of_idle hidle]
  refine ⟨hcmd, fun hr q hq => ?other, ?whole, ?half, ?ctrl, ?fmt, ?map, ?kn, ?id, ?reserved⟩
  case other => rw [hread hr, regValue_regWriteIdle_of_ne hr hq, readValue_idle hidle]
  case whole =>
    rintro (rfl | rfl | rfl | ⟨k, rfl⟩)
    · exact hread Reg.noConfusion _
    · exact hread Reg.noConfusion _
    · exact hread Reg.noConfusion _
    · rw [hread Reg.noConfusion]
      simp [State.regWriteIdle, State.regValue]
  case half =>
    rintro (rfl | rfl | rfl)
    · exact (hread Reg.noConfusion _).trans (zeroExtend_low_half v)
    · exact (hread Reg.noConfusion _).trans (zeroExtend_low_half v)
    · exact (hread Reg.noConfusion _).trans (zeroExtend_low_half v)
  case ctrl =>
    rintro rfl
    exact (hread Reg.noConfusion _).trans (ofNat_bit_zero v)
  case fmt =>
    rintro rfl
    exact (hread Reg.noConfusion _).trans (fmt_mask v)
  case map =>
    rintro ⟨k, rfl⟩
    rw [hread Reg.noConfusion, ← zeroExtend_low_byte]
    simp [State.regWriteIdle, State.regValue]
  case kn =>
    rintro ⟨k, rfl⟩
    rw [hread Reg.noConfusion]
    simp [State.regWriteIdle, State.regValue]
  case id =>
    rintro rfl
    exact hread Reg.noConfusion _
  case reserved =>
    rintro rfl
    exact hread Reg.noConfusion _

/-- Settles O55: every register but a busy table reads what it holds, field by field; a read is a step that keeps the
state but for the word, the free draws and the input itself. -/
theorem registerReadsHaveNoSideEffect : Obligations.RegisterReadsHaveNoSideEffect := by
  refine ⟨fun s => ?values, fun s index rest hinputs => ?read⟩
  case values =>
    have hvalue {r : Reg} (hr : r.isTable = false) : s.readValue r = s.regValue r := readValue_of_not_table hr
    have herrcode : ∀ row ∈ ([(.noError, 0), (.eCmd, 1), (.eDepth, 2), (.eKernel, 3), (.eTrunc, 4), (.eAddr, 5),
        (.eAlias, 6)] : List (ErrCode × Nat)), s.errcode = row.1 → (s.readValue .errcode).toNat = row.2 := by
      have codes : ∀ row ∈ ([(.noError, 0), (.eCmd, 1), (.eDepth, 2), (.eKernel, 3), (.eTrunc, 4), (.eAddr, 5),
          (.eAlias, 6)] : List (ErrCode × Nat)), (BitVec.ofNat 32 row.1.code).toNat = row.2 := by decide
      intro row hrow hcode
      rw [hvalue rfl, State.regValue, hcode, codes row hrow]
    have hctrl : (s.readValue .ctrl).toNat = s.ie.toNat := by
      rw [hvalue rfl, State.regValue, BitVec.toNat_ofNat]
      exact Nat.mod_eq_of_lt (s.ie.toNat_le.trans_lt (by norm_num))
    have hhalf (x : Half) : (x.zeroExtend 32).toNat = x.toNat := BitVec.toNat_setWidth_of_le (by norm_num)
    refine ⟨?_, herrcode, hvalue rfl, hvalue rfl, hctrl, hvalue rfl, hvalue rfl, hvalue rfl, ?_, ?_, ?_, ?_,
      fun k => ?_, hvalue rfl, fun hidle => ⟨fun k => readValue_idle hidle _, fun k => ?_⟩⟩
    · rw [hvalue rfl]
      exact s.status.toWord_toNat
    · rw [hvalue rfl]
      exact hhalf s.width
    · rw [hvalue rfl]
      exact hhalf s.height
    · rw [hvalue rfl]
      exact fmtWord_toNat s
    · rw [hvalue rfl]
      exact hhalf s.kdiv
    · rw [hvalue rfl]
      exact BitVec.toInt_signExtend_of_le (by norm_num)
    · rw [readValue_idle hidle]
      exact BitVec.toNat_setWidth_of_le (by norm_num)
  case read =>
    refine ⟨_, _, step_of_regRead hinputs, fun h => ⟨rfl, ?_⟩, fun k hk => ?_⟩
    · rcases h with h | h <;> simp [h]
    · obtain ⟨b, hb⟩ := readValue_map_eq_byte s k
      rw [hk, hb]
      exact extractLsb'_zeroExtend_byte b

end Sys2Proof

/-! The host's own access to data memory and the reset pulse (20_memory.md R60, 44_system.md R225,
70_reset_and_hazards.md R260, R262, R270): what each can find of a command in flight. -/

namespace Sys2Proof.Machine

variable {s : State}

/-! ### Memory as the command in flight would leave it -/

theorem finalMem_of_exec {i : Instr} {u : State} (hbusy : s.status.busy = true) (hdecode : decode s.cmd = .ok i)
    (hexec : exec i s = .next u) : s.finalMem = u.mem := by
  rw [State.finalMem, engineTurn_of_decode_ok hbusy hdecode, hexec]

theorem finalMem_of_decode_error {e : DecodeError} (hbusy : s.status.busy = true) (hdecode : decode s.cmd = .error e) :
    s.finalMem = s.mem := by
  rw [State.finalMem, engineTurn_of_decode_error hbusy hdecode]
  rfl

/-- A legal command's final memory agrees with the memory as it is outside the written region. -/
theorem finalMem_read_outside {i : Instr} {u : State} (hwf : s.mem.wf = true) (hbusy : s.status.busy = true)
    (hdecode : decode s.cmd = .ok i) (hexec : exec i s = .next u) {a : Nat}
    (ha : (writtenRegion i s).contains a = false) : s.finalMem.read a = s.mem.read a := by
  rw [finalMem_of_exec hbusy hdecode hexec]
  exact exec_read_outside hwf hexec ha

/-! ### Loads and stores -/

theorem eitherByte_self (d a : Nat) (b : Byte) : eitherByte d a b b = b := if_pos rfl

theorem State.hostLoad_of_idle (hidle : s.status.busy = false) (a : Nat) :
    s.hostLoad a = { s with hostRdata := s.mem.read a } := by
  rw [State.hostLoad, hidle]
  rfl

theorem State.hostLoad_of_busy (hbusy : s.status.busy = true) (a : Nat) : s.hostLoad a =
    { s with hostRdata := eitherByte s.draws a (s.mem.read a) (s.finalMem.read a), draws := s.draws + 1 } := by
  rw [State.hostLoad, hbusy]
  rfl

theorem step_of_memRead {a : Nat} {rest : List Input} (ha : a < s.params.memBytes)
    (hinputs : s.inputs = .memRead a :: rest) : step s = .next (State.hostLoad { s with inputs := rest } a) :=
  (step_of_input hinputs).trans (perform_memRead_ok ha)

theorem step_of_memWrite {a : Nat} {v : Byte} {rest : List Input} (ha : a < s.params.memBytes)
    (hinputs : s.inputs = .memWrite a v :: rest) : step s = .next (State.hostStore { s with inputs := rest } a v) :=
  (step_of_input hinputs).trans (perform_memWrite_ok ha)

/-- An access above the address space is the machine's one stop (log entry 11). -/
theorem step_of_noSuchAddress {a : Nat} {v : Byte} {rest : List Input} (ha : s.params.memBytes ≤ a)
    (hinputs : s.inputs = .memWrite a v :: rest ∨ s.inputs = .memRead a :: rest) :
    step s = .fault (.noSuchAddress a) := by
  have hmissing : State.addressOk { s with inputs := rest } a = false := decide_eq_false (Nat.not_lt.mpr ha)
  rcases hinputs with hwrite | hread
  · rw [step_of_input hwrite, perform, hmissing]
    rfl
  · rw [step_of_input hread, perform, hmissing]
    rfl

/-! ### Reset -/

theorem pulseReset_regValue {r : Reg} (hr : r.isTable = false) (s : State) :
    s.pulseReset.regValue r = State.reset.regValue r := by
  cases r
  case hist => cases hr
  case map => cases hr
  all_goals rfl

theorem memAfterReset_of_idle (hidle : s.status.busy = false) : s.memAfterReset = s.mem := by
  simp [State.memAfterReset, hidle]

theorem memAfterReset_read (hwf : s.mem.wf = true) (hbusy : s.status.busy = true) (a : Nat) :
    s.memAfterReset.read a = s.mem.read a ∨ s.memAfterReset.read a = s.finalMem.read a := by
  rw [State.memAfterReset, if_pos hbusy]
  exact mix_read hwf _ a

end Sys2Proof.Machine

namespace Sys2Proof

open Machine

/-- Settles O58: a store writes its byte and records it; a load reads memory when the block is idle, and otherwise
one of the byte as it is and the byte the command in flight would leave. -/
theorem hostMemoryAccess : Obligations.HostMemoryAccess := by
  refine fun s a v rest hwf => ⟨fun ha => ⟨fun hinputs => ?store, fun hinputs hidle => ?idleLoad,
    fun hinputs hbusy => ?busyLoad⟩, fun ha hinputs => step_of_noSuchAddress ha hinputs⟩
  case store =>
    refine ⟨s.mem.write a v, _, step_of_memWrite ha hinputs, rfl, Memory.read_write_same hwf a v,
      fun b hb => Memory.read_write_other hwf v hb, fun hbusy r b hb => ?_⟩
    exact hostStore_memAtAcceptance (s := { s with inputs := rest }) hwf hbusy a v r hb
  case idleLoad =>
    exact (step_of_memRead ha hinputs).trans
      (congrArg Host.Outcome.next (State.hostLoad_of_idle (s := { s with inputs := rest }) hidle a))
  case busyLoad =>
    refine ⟨_, (step_of_memRead ha hinputs).trans
      (congrArg Host.Outcome.next (State.hostLoad_of_busy (s := { s with inputs := rest }) hbusy a)),
      fun i u hdecode hexec => ⟨?_, fun hout => ?_⟩, fun e hdecode => ?_⟩
    · rw [finalMem_of_exec (s := { s with inputs := rest }) hbusy hdecode hexec]
      exact eitherByte_cases _ _ _ _
    · rw [finalMem_read_outside (s := { s with inputs := rest }) hwf hbusy hdecode hexec (by cases i <;> exact hout)]
      exact eitherByte_self _ _ _
    · rw [finalMem_of_decode_error (s := { s with inputs := rest }) hbusy hdecode]
      exact eitherByte_self _ _ _

/-- Settles O59: the registers are those of State.reset; memory stays when the block is idle, and otherwise each byte is
the old one or the one the command in flight would have left. -/
theorem resetPulse : Obligations.ResetPulse := by
  intro s rest hwf hinputs
  have hread (hbusy : s.status.busy = true) (a : Nat) :=
    memAfterReset_read (s := { s with inputs := rest }) hwf hbusy a
  refine ⟨_, step_of_input hinputs, fun r hr => (pulseReset_regValue hr _).trans (reset_regValue hr), rfl, rfl, rfl,
    fun hidle => memAfterReset_of_idle (s := { s with inputs := rest }) hidle,
    fun i u hbusy hdecode hexec a => ⟨?_, fun hout => ?_⟩, fun e hbusy hdecode a => ?_⟩
  · have hbyte := hread hbusy a
    rwa [finalMem_of_exec (s := { s with inputs := rest }) hbusy hdecode hexec] at hbyte
  · have hbyte := hread hbusy a
    rwa [finalMem_read_outside (s := { s with inputs := rest }) hwf hbusy hdecode hexec (by cases i <;> exact hout),
      or_self] at hbyte
  · have hbyte := hread hbusy a
    rwa [finalMem_of_decode_error (s := { s with inputs := rest }) hbusy hdecode, or_self] at hbyte

end Sys2Proof

/-! The scanline unit (40_scanline.md R120 to R122): what SCAN.IN and SCAN.OUT leave byte by byte, and their two
compositions. -/

namespace Sys2Proof.Machine

variable {s u : State}

/-! ### Offsets -/

theorem State.pixelAddr_eq_add (s : State) (base x y c : Nat) :
    s.pixelAddr base x y c = base + s.pixelAddr 0 x y c := by
  unfold State.pixelAddr
  omega

theorem State.diskAddr_eq_add (s : State) (base x r k : Nat) :
    s.diskAddr base x r k = base + s.diskAddr 0 x r k := by
  unfold State.diskAddr
  omega

theorem State.padAddr_eq_add (s : State) (base r p : Nat) : s.padAddr base r p = base + s.padAddr 0 r p := by
  unfold State.padAddr
  omega

theorem State.exists_pixelOffset {j : Nat} (hj : j < s.storeBytes) :
    ∃ x y c, x < s.w ∧ y < s.h ∧ c < s.bppb ∧ j = s.pixelAddr 0 x y c :=
  State.exists_pixelAddr (base := 0) (Nat.zero_le j) (by omega)

/-- Every byte of an on-disk array is a pixel byte or a padding byte (20_memory.md R69). -/
theorem State.diskOffset_cases {j : Nat} (hj : j < s.diskBytes) :
    (∃ r x k, r < s.h ∧ x < s.w ∧ k < s.bppb ∧ j = s.diskAddr 0 x r k) ∨
      ∃ r p, r < s.h ∧ p < s.padb ∧ j = s.padAddr 0 r p := by
  have hstride : 0 < s.stride := Nat.pos_of_ne_zero fun h => by simp [State.diskBytes, h] at hj
  have hrow : j / s.stride < s.h := Nat.div_lt_of_lt_mul (by rwa [Nat.mul_comm])
  have hsplit : j = j / s.stride * s.stride + j % s.stride := (Nat.div_add_mod' j s.stride).symm
  have hrest : j % s.stride < s.rowb + s.padb := Nat.mod_lt j hstride
  by_cases hpixel : j % s.stride < s.rowb
  · have hx : j % s.stride / s.bppb < s.w := Nat.div_lt_of_lt_mul (by rwa [Nat.mul_comm])
    have hbyte := Nat.div_add_mod' (j % s.stride) s.bppb
    refine .inl ⟨_, _, _, hrow, hx, Nat.mod_lt (j % s.stride) s.bppb_pos, ?_⟩
    unfold State.diskAddr
    omega
  · refine .inr ⟨_, j % s.stride - s.rowb, hrow, by omega, ?_⟩
    unfold State.padAddr
    omega

/-! ### The checks -/

theorem checksPass_scanIn (hdepth : s.depthOk = true) (hlen : s.diskBytes ≤ s.len.toNat)
    (hsrc : s.inRange s.srcDisk = true) (hdst : s.inRange s.dstStore = true)
    (happart : s.srcDisk.overlaps s.dstStore = false) : checksPass .scanIn s := by
  simp [checksPass, checksOf, scanInChecks, State.checkDepth, State.checkTrunc, State.checkAddr2, checkAlias, *]

theorem checksPass_scanOut (hdepth : s.depthOk = true) (hsrc : s.inRange s.srcStore = true)
    (hdst : s.inRange s.dstDisk = true) (happart : s.srcStore.overlaps s.dstDisk = false) : checksPass .scanOut s := by
  simp [checksPass, checksOf, scanOutChecks, State.checkDepth, State.checkAddr2, checkAlias, *]

/-! ### The commands -/

theorem exec_scanIn_read (hwf : s.mem.wf = true) (hpass : checksPass .scanIn s) (hown : hostKeepsOwnership .scanIn s)
    (hexec : exec .scanIn s = .next u) {r x k : Nat} (hr : r < s.h) (hx : x < s.w) (hk : k < s.bppb) :
    u.mem.read (s.pixelAddr s.dstAddr x (s.yrow r) (s.diskChannel k)) = s.mem.read (s.diskAddr s.srcAddr x r k) := by
  rw [performed_of_exec hpass hown hexec]
  exact scanIn_read hwf hr hx hk

/-- SCAN.IN seen from the store: the row and the channel of a sample, swapped back, say where it came from. -/
theorem exec_scanIn_read_sample (hwf : s.mem.wf = true) (hpass : checksPass .scanIn s)
    (hown : hostKeepsOwnership .scanIn s) (hexec : exec .scanIn s = .next u) {x y c : Nat} (hx : x < s.w) (hy : y < s.h)
    (hc : c < s.bppb) :
    u.mem.read (s.pixelAddr s.dstAddr x y c) = s.mem.read (s.diskAddr s.srcAddr x (s.yrow y) (s.diskChannel c)) := by
  have hread := exec_scanIn_read hwf hpass hown hexec (State.yrow_lt hy) hx (s.diskChannel_lt c)
  rwa [State.yrow_yrow hy, State.diskChannel_diskChannel hc] at hread

theorem exec_scanOut_read (hwf : s.mem.wf = true) (hpass : checksPass .scanOut s)
    (hown : hostKeepsOwnership .scanOut s) (hexec : exec .scanOut s = .next u) {r x k : Nat} (hr : r < s.h)
    (hx : x < s.w) (hk : k < s.bppb) :
    u.mem.read (s.diskAddr s.dstAddr x r k) = s.mem.read (s.pixelAddr s.srcAddr x (s.yrow r) (s.diskChannel k)) := by
  rw [performed_of_exec hpass hown hexec]
  exact scanOut_read hwf hr hx hk

theorem exec_scanOut_read_pad (hwf : s.mem.wf = true) (hpass : checksPass .scanOut s)
    (hown : hostKeepsOwnership .scanOut s) (hexec : exec .scanOut s = .next u) {r p : Nat} (hr : r < s.h)
    (hp : p < s.padb) : u.mem.read (s.padAddr s.dstAddr r p) = 0#8 := by
  rw [performed_of_exec hpass hown hexec]
  exact scanOut_read_pad hwf hr hp

end Sys2Proof.Machine

namespace Sys2Proof

open Machine

/-- Settles O13: the checks pass, so the command performs; its writes read back at their addresses and leave every other
byte. -/
theorem scanInStoresTheImage : Obligations.ScanInStoresTheImage := by
  intro s hwf hdepth hlen hsrc hdst happart hown
  have hpass := checksPass_scanIn hdepth hlen hsrc hdst happart
  exact ⟨_, exec_performs hpass hown, unchanged_of_effect .scanIn s hwf,
    fun r x k hr hx hk => scanIn_read hwf hr hx hk⟩

/-- Settles O14: as O13, with the padding bytes among the writes. -/
theorem scanOutWritesTheArray : Obligations.ScanOutWritesTheArray := by
  intro s hwf hdepth hsrc hdst happart hown
  have hpass := checksPass_scanOut hdepth hsrc hdst happart
  exact ⟨_, exec_performs hpass hown, unchanged_of_effect .scanOut s hwf,
    fun r x k hr hx hk => scanOut_read hwf hr hx hk, fun r p hr hp => scanOut_read_pad hwf hr hp⟩

/-- Settles O15: a byte of the second store is a sample; SCAN.IN took it from a pixel byte of the array, which SCAN.OUT
took from the same sample of the first store. -/
theorem scanOutThenScanInReturnsTheStore : Obligations.ScanOutThenScanInReturnsTheStore := by
  intro s t u dst2 len2 hwf hpass hown hout hpass' hown' hin j hj
  obtain ⟨x, y, c, hx, hy, hc, rfl⟩ := State.exists_pixelOffset hj
  rw [← State.pixelAddr_eq_add, ← State.pixelAddr_eq_add]
  have hwft : t.mem.wf = true := exec_mem_wf hwf hout
  have harray : t.mem.read (s.diskAddr s.dstAddr x (s.yrow y) (s.diskChannel c)) =
      s.mem.read (s.pixelAddr s.srcAddr x y c) := by
    rw [exec_scanOut_read hwf hpass hown hout (State.yrow_lt hy) hx (s.diskChannel_lt c), State.yrow_yrow hy,
      State.diskChannel_diskChannel hc]
  cases performed_of_exec hpass hown hout
  exact (exec_scanIn_read_sample (by exact hwft) hpass' hown' hin hx hy hc).trans harray

/-- Settles O16: a pixel byte goes into the store and comes back to its place; a padding byte comes back as 0,
whatever it was, and every byte of the array is one or the other. -/
theorem scanInThenScanOutReturnsTheArray : Obligations.ScanInThenScanOutReturnsTheArray := by
  intro s t u dst2 hwf hpass hown hin hpass' hown' hout
  have hwft : t.mem.wf = true := exec_mem_wf hwf hin
  have hstore {r x k : Nat} (hr : r < s.h) (hx : x < s.w) (hk : k < s.bppb) :=
    exec_scanIn_read hwf hpass hown hin hr hx hk
  cases performed_of_exec hpass hown hin
  have hpixel (r x k : Nat) (hr : r < s.h) (hx : x < s.w) (hk : k < s.bppb) :
      u.mem.read (s.diskAddr dst2.toNat x r k) = s.mem.read (s.diskAddr s.srcAddr x r k) :=
    (exec_scanOut_read (by exact hwft) hpass' hown' hout hr hx hk).trans (hstore hr hx hk)
  have hpad {r p : Nat} (hr : r < s.h) (hp : p < s.padb) : u.mem.read (s.padAddr dst2.toNat r p) = 0#8 :=
    exec_scanOut_read_pad (by exact hwft) hpass' hown' hout hr hp
  refine ⟨hpixel, fun hbytes r p hr hp => ?padZero, fun hzero j hj => ?sameByte⟩
  case padZero =>
    have hj : s.padAddr 0 r p < s.diskBytes := by simpa using (State.padAddr_mem (base := 0) hr hp).2
    have hbyte := hbytes _ hj
    rw [← State.padAddr_eq_add, ← State.padAddr_eq_add, hpad hr hp] at hbyte
    exact hbyte.symm
  case sameByte =>
    rcases State.diskOffset_cases hj with ⟨r, x, k, hr, hx, hk, rfl⟩ | ⟨r, p, hr, hp, rfl⟩
    · rw [← State.diskAddr_eq_add, ← State.diskAddr_eq_add]
      exact hpixel r x k hr hx hk
    · rw [← State.padAddr_eq_add, ← State.padAddr_eq_add, hpad hr hp, hzero r p hr hp]

end Sys2Proof

/-! The convolution engine (41_convolution.md R140 to R156): a neighbour as a sample of the image, the sum over a
kernel, and every convolution command as one lemma over its kernel. -/

namespace Sys2Proof.Machine

variable {s : State}

/-! ### Neighbours -/

/-- A neighbour depends on its coordinates through their clamps only (41_convolution.md R142). -/
theorem neighbour_congr {cx cy cx' cy' : Int} (hx : clamp cx 0 (s.w - 1) = clamp cx' 0 (s.w - 1))
    (hy : clamp cy 0 (s.h - 1) = clamp cy' 0 (s.h - 1)) (c : Nat) : s.neighbour cx cy c = s.neighbour cx' cy' c := by
  rw [State.neighbour, hx, hy, State.neighbour]

theorem neighbour_of_mem {x y : Nat} (hx : x < s.w) (hy : y < s.h) (c : Nat) :
    s.neighbour x y c = (s.mem.read (s.pixelAddr s.srcAddr x y c)).toNat := by
  rw [State.neighbour, clamp_of_mem (by omega) (by omega), clamp_of_mem (by omega) (by omega)]
  rfl

/-- Of an image with a pixel every neighbour is a sample. -/
theorem neighbour_eq_sample (hw : 1 ≤ s.w) (hh : 1 ≤ s.h) (cx cy : Int) (c : Nat) : ∃ x y, x < s.w ∧ y < s.h ∧
    s.neighbour cx cy c = (s.mem.read (s.pixelAddr s.srcAddr x y c)).toNat := by
  have hx0 := le_clamp (v := cx) (show (0 : Int) ≤ s.w - 1 by omega)
  have hx1 := clamp_le (v := cx) (show (0 : Int) ≤ s.w - 1 by omega)
  have hy0 := le_clamp (v := cy) (show (0 : Int) ≤ s.h - 1 by omega)
  have hy1 := clamp_le (v := cy) (show (0 : Int) ≤ s.h - 1 by omega)
  exact ⟨_, _, by omega, by omega, rfl⟩

/-! ### Quotients -/

theorem tdiv_one (a : Int) : tdiv a 1 = a := by
  unfold tdiv
  split_ifs <;> omega

theorem tdiv_mul_mul {f b : Int} (hf : 0 < f) (hb : 0 < b) (a : Int) : tdiv (f * a) (f * b) = tdiv a b := by
  rw [tdiv_eq_int_tdiv _ (mul_pos hf hb), tdiv_eq_int_tdiv _ hb, Int.mul_tdiv_mul_of_pos _ _ hf]

/-- A byte is its own clamp. -/
theorem clampByte_of_byte (v : Byte) : clampByte (v.toNat : Int) = v := by
  have hlt := v.isLt
  have hvalue := clampByte_toNat v.toNat
  rw [clamp_of_mem (by omega) (by omega)] at hvalue
  exact BitVec.eq_of_toNat_eq (by omega)

/-! ### Kernels -/

theorem userKernel_coeff (s : State) (n a b : Nat) :
    (s.userKernel n).coeff a b = (s.kn.toList.getD (a * n + b) 0#16).toInt := getD_map_toInt _ _

theorem emboss_coeff (s : State) (a b : Nat) :
    s.emboss.coeff a b = (s.params.embossKn.toList.getD (a * 3 + b) 0#16).toInt := getD_map_toInt _ _

theorem scaled_coeff (k : Kernel) (f : Int) (d a b : Nat) :
    Kernel.coeff ⟨k.size, k.num.map fun v => f * v, d⟩ a b = f * k.coeff a b := by
  simp only [Kernel.coeff, List.getD_eq_getElem?_getD, List.getElem?_map]
  cases k.num[a * k.size + b]? <;> simp

/-- A numerator has sixteen bits and a sample eight (41_convolution.md R148). -/
theorem abs_term_le (s : State) (v : Half) (cx cy : Int) (c : Nat) : |v.toInt * s.neighbour cx cy c| ≤ 32768 * 255 := by
  obtain ⟨hnonneg, hle⟩ := nb_bound s cx cy c
  have hnum : |v.toInt| ≤ 32768 := by
    have hlow := v.le_toInt
    have hhigh := v.toInt_lt
    exact abs_le.mpr ⟨by simpa using hlow, by norm_num at hhigh; omega⟩
  rw [abs_mul, abs_of_nonneg hnonneg]
  exact mul_le_mul hnum hle hnonneg (by norm_num)

theorem abs_convSum_userKernel_le (s : State) (n x y c : Nat) :
    |s.convSum (s.userKernel n) x y c| ≤ n * (n * (32768 * 255)) := by
  have hrow (a : Nat) : |∑ b ∈ Finset.range n, (s.userKernel n).coeff a b *
      s.neighbour ((x : Int) + b - (n / 2 : Nat)) ((y : Int) + a - (n / 2 : Nat)) c| ≤ n * (32768 * 255) := by
    refine (Finset.abs_sum_le_sum_abs _ _).trans ?_
    refine (Finset.sum_le_card_nsmul _ _ (32768 * 255) fun b _ => ?_).trans (by simp)
    rw [userKernel_coeff]
    exact abs_term_le s _ _ _ c
  rw [convSum_eq]
  refine (Finset.abs_sum_le_sum_abs _ _).trans ?_
  exact (Finset.sum_le_card_nsmul _ _ _ fun a _ => hrow a).trans (by simp [State.userKernel])

/-- A kernel with a 1 at its centre and 0 elsewhere sums to the centre's sample (41_convolution.md R149). -/
theorem convSum_of_identity {k : Kernel} (hodd : k.size % 2 = 1)
    (hk : ∀ a b, a < k.size → b < k.size → k.coeff a b = if a = k.size / 2 ∧ b = k.size / 2 then 1 else 0)
    (x y c : Nat) : s.convSum k x y c = s.neighbour x y c := by
  have hcentre : k.size / 2 < k.size := by omega
  rw [convSum_eq, Finset.sum_eq_single_of_mem (k.size / 2) (Finset.mem_range.mpr hcentre),
    Finset.sum_eq_single_of_mem (k.size / 2) (Finset.mem_range.mpr hcentre)]
  · rw [hk _ _ hcentre hcentre, if_pos ⟨rfl, rfl⟩, one_mul, add_sub_cancel_right, add_sub_cancel_right]
  · intro b hb hne
    rw [hk _ _ hcentre (Finset.mem_range.mp hb), if_neg fun h => hne h.2, zero_mul]
  · intro a ha hne
    refine Finset.sum_eq_zero fun b hb => ?_
    rw [hk _ _ (Finset.mem_range.mp ha) (Finset.mem_range.mp hb), if_neg fun h => hne h.1, zero_mul]

/-- The flat index of the centre of an odd kernel is met at the centre alone. -/
theorem flat_index_eq_centre_iff {n a b : Nat} (hodd : n % 2 = 1) (hb : b < n) :
    a * n + b = n * n / 2 ↔ a = n / 2 ∧ b = n / 2 := by
  have hn : n = 2 * (n / 2) + 1 := by omega
  have hcentre : n * n / 2 = n / 2 * n + n / 2 := by
    have hsquare : n * n = 2 * (n / 2 * n) + n := by
      calc n * n = (2 * (n / 2) + 1) * n := by rw [← hn]
        _ = 2 * (n / 2 * n) + n := by ring
    omega
  rw [hcentre]
  exact ⟨fun h => mul_add_inj hb (by omega) h, fun ⟨h1, h2⟩ => by rw [h1, h2]⟩

/-! ### The commands -/

theorem checksPass_convK {n : Nat} (hn : n = 3 ∨ n = 5) (hdiv : s.kdiv ≠ 0#16) (hdepth : s.depthOk = true)
    (hw : n ≤ s.w) (hh : n ≤ s.h) (hsrc : s.inRange s.srcStore = true) (hdst : s.inRange s.dstStore = true)
    (happart : s.srcStore.overlaps s.dstStore = false) : checksPass (.convK n) s := by
  have hkernel : (s.checkKernel n).fails = false := by
    rw [← Bool.not_eq_true, checkKernel_fails_iff]
    rintro (hsize | hzero | hsmall)
    · omega
    · exact hdiv hzero
    · omega
  simp [checksPass, checksOf, convKChecks, State.checkDepth, State.checkAddr2, checkAlias, *]

/-- A command whose checks pass on the states a convolution asks for, and whose effect is that of the kernel, is the
convolution with the kernel's numerators and divisor. -/
theorem convolvesAs_of_kernel {i : Instr} {n : Nat} {ready : State → Prop} {coeff : State → Nat → Nat → Int}
    {d : State → Int} (kernel : State → Kernel)
    (hpass : ∀ s, ready s → s.depthOk = true → n ≤ s.w → n ≤ s.h → s.inRange s.srcStore = true →
      s.inRange s.dstStore = true → s.srcStore.overlaps s.dstStore = false → checksPass i s)
    (heffect : ∀ s, effectOf i s = convEffect s (kernel s)) (hregion : ∀ s, writtenRegion i s = s.dstStore)
    (hsize : ∀ s, (kernel s).size = n)
    (hcoeff : ∀ s a b, a < n → b < n → (kernel s).coeff a b = coeff s a b) (hdiv : ∀ s, ((kernel s).div : Int) = d s) :
    ConvolvesAs i n ready coeff d := by
  intro s hwf hready hdepth hw hh hsrc hdst happart hown
  have hexec := exec_performs (hpass s hready hdepth hw hh hsrc hdst happart) hown
  have houtside := unchanged_of_effect i s hwf
  rw [heffect] at hexec houtside
  rw [hregion] at houtside
  refine ⟨_, hexec, houtside, fun x y c hx hy hc => ?_⟩
  have hread : (s.mem.writeAll (convEffect s (kernel s)).writes).read (s.pixelAddr s.dstAddr x y c) =
      s.convByte (kernel s) x y c := conv_read (kernel s) hwf hx hy hc
  rw [hread, State.convByte, clampByte_toNat, convSum_eq, hsize, hdiv]
  congr 2
  refine Finset.sum_congr rfl fun a ha => Finset.sum_congr rfl fun b hb => ?_
  rw [hcoeff s a b (Finset.mem_range.mp ha) (Finset.mem_range.mp hb)]

/-- A preset of size n (41_convolution.md R150). -/
theorem convolvesAs_of_preset {i : Instr} {n : Nat} {coeff : State → Nat → Nat → Int} {d : State → Int}
    (kernel : State → Kernel) (hchecks : ∀ s, checksOf i s = presetChecks n s)
    (heffect : ∀ s, effectOf i s = convEffect s (kernel s)) (hregion : ∀ s, writtenRegion i s = s.dstStore)
    (hsize : ∀ s, (kernel s).size = n)
    (hcoeff : ∀ s a b, a < n → b < n → (kernel s).coeff a b = coeff s a b) (hdiv : ∀ s, ((kernel s).div : Int) = d s) :
    ConvolvesAs i n (fun _ => True) coeff d := by
  refine convolvesAs_of_kernel kernel (fun s _ hdepth hw hh hsrc hdst happart => ?_) heffect hregion hsize hcoeff hdiv
  rw [checksPass, hchecks]
  exact preset_pass n s hdepth hw hh hsrc hdst happart

end Sys2Proof.Machine

namespace Sys2Proof

open Machine

/-- Settles O18: CONV.K's kernel is read from KN with stride n. -/
theorem convKUsesTheUserKernel : Obligations.ConvKUsesTheUserKernel := by
  intro n hn
  exact convolvesAs_of_kernel (fun s => s.userKernel n)
    (fun s hdiv hdepth hw hh hsrc hdst happart => checksPass_convK hn hdiv hdepth hw hh hsrc hdst happart)
    (fun _ => rfl) (fun _ => rfl) (fun _ => rfl) (fun s a b _ _ => userKernel_coeff s n a b) (fun _ => rfl)

/-- Settles O19: the nine numerators of the box. -/
theorem convBox3IsTheBoxBlur : Obligations.ConvBox3IsTheBoxBlur := by
  have hcoeff : ∀ a < 3, ∀ b < 3, box3.coeff a b = 1 := by decide
  exact convolvesAs_of_preset (fun _ => box3) (fun _ => rfl) (fun _ => rfl) (fun _ => rfl) (fun _ => rfl)
    (fun _ a b ha hb => hcoeff a ha b hb) (fun _ => rfl)

/-- Settles O20: the nine numerators as products of [1, 2, 1]. -/
theorem convGauss3IsTheGaussianBlur : Obligations.ConvGauss3IsTheGaussianBlur := by
  have hcoeff : ∀ a < 3, ∀ b < 3, gauss3.coeff a b = [1, 2, 1].getD a 0 * [1, 2, 1].getD b 0 := by decide
  exact convolvesAs_of_preset (fun _ => gauss3) (fun _ => rfl) (fun _ => rfl) (fun _ => rfl) (fun _ => rfl)
    (fun _ a b ha hb => hcoeff a ha b hb) (fun _ => rfl)

/-- Settles O21: the twenty-five numerators as products of [1, 4, 6, 4, 1]. -/
theorem convGauss5IsTheBinomialBlur : Obligations.ConvGauss5IsTheBinomialBlur := by
  have hcoeff : ∀ a < 5, ∀ b < 5, gauss5.coeff a b = [1, 4, 6, 4, 1].getD a 0 * [1, 4, 6, 4, 1].getD b 0 := by decide
  exact convolvesAs_of_preset (fun _ => gauss5) (fun _ => rfl) (fun _ => rfl) (fun _ => rfl) (fun _ => rfl)
    (fun _ a b ha hb => hcoeff a ha b hb) (fun _ => rfl)

/-- Settles O22: the centre and its eight neighbours. -/
theorem convEdgeIsTheLaplacian : Obligations.ConvEdgeIsTheLaplacian := by
  have hcoeff : ∀ a < 3, ∀ b < 3, edge3.coeff a b = if a = 1 ∧ b = 1 then 8 else -1 := by decide
  exact convolvesAs_of_preset (fun _ => edge3) (fun _ => rfl) (fun _ => rfl) (fun _ => rfl) (fun _ => rfl)
    (fun _ a b ha hb => hcoeff a ha b hb) (fun _ => rfl)

/-- Settles O23: the kernel is the parameter, read with stride 3. -/
theorem convEmbossUsesTheParameterKernel : Obligations.ConvEmbossUsesTheParameterKernel :=
  convolvesAs_of_preset State.emboss (fun _ => rfl) (fun _ => rfl) (fun _ => rfl) (fun _ => rfl)
    (fun s a b _ _ => emboss_coeff s a b) (fun _ => rfl)

/-- Settles O24: the centre, its four edge neighbours and the corners. -/
theorem convSharpIsTheSharpenKernel : Obligations.ConvSharpIsTheSharpenKernel := by
  have hcoeff : ∀ a < 3, ∀ b < 3,
      sharp3.coeff a b = if a = 1 ∧ b = 1 then 5 else if a = 1 ∨ b = 1 then -1 else 0 := by decide
  exact convolvesAs_of_preset (fun _ => sharp3) (fun _ => rfl) (fun _ => rfl) (fun _ => rfl) (fun _ => rfl)
    (fun _ a b ha hb => hcoeff a ha b hb) (fun _ => rfl)

/-- Settles O25: a coordinate below 0 clamps to 0 and one above the last to the last, which clamp to themselves. -/
theorem neighbourClampsToTheEdge : Obligations.NeighbourClampsToTheEdge := by
  intro s cx cy c hw hh
  have hlow {v hi : Int} (hhi : 0 ≤ hi) (hv : v < 0) : clamp v 0 hi = clamp 0 0 hi := by
    rw [clamp_of_lt hv, clamp_of_mem le_rfl hhi]
  have hhigh {v hi : Int} (hhi : 0 ≤ hi) (hv : hi < v) : clamp v 0 hi = clamp hi 0 hi := by
    rw [clamp_of_gt hhi hv, clamp_of_mem hhi le_rfl]
  have hw' : (0 : Int) ≤ s.w - 1 := by omega
  have hh' : (0 : Int) ≤ s.h - 1 := by omega
  exact ⟨fun x y hx hy => neighbour_of_mem hx hy c, fun h => neighbour_congr (hlow hw' h) rfl c,
    fun h => neighbour_congr (hhigh hw' h) rfl c, fun h => neighbour_congr rfl (hlow hh' h) c,
    fun h => neighbour_congr rfl (hhigh hh' h) c⟩

/-- Settles O26: n × n terms, each at most 32768 × 255. -/
theorem convSumFitsThirtyTwoBits : Obligations.ConvSumFitsThirtyTwoBits := by
  intro s n x y c hn
  refine (abs_convSum_userKernel_le s n x y c).trans ?_
  rcases hn with rfl | rfl <;> norm_num

/-- Settles O27: each sample of the new store is the centre's sample, over 1, and the samples are all its bytes. -/
theorem identityKernelCopiesTheStore : Obligations.IdentityKernelCopiesTheStore := by
  intro s t n hn hwf hpass hown hdiv hkernel hexec j hj
  obtain ⟨x, y, c, hx, hy, hc, rfl⟩ := State.exists_pixelOffset hj
  rw [← State.pixelAddr_eq_add, ← State.pixelAddr_eq_add]
  have hodd : n % 2 = 1 := by omega
  have hcoeff (a b : Nat) (ha : a < n) (hb : b < n) :
      (s.userKernel n).coeff a b = if a = n / 2 ∧ b = n / 2 then 1 else 0 := by
    rw [userKernel_coeff, hkernel _ (mul_add_lt hb ha)]
    simp only [flat_index_eq_centre_iff hodd hb]
    split_ifs <;> rfl
  have hbyte : s.convByte (s.userKernel n) x y c = s.mem.read (s.pixelAddr s.srcAddr x y c) := by
    have hone : ((s.userKernel n).div : Int) = 1 := by simp [State.userKernel, hdiv]
    rw [State.convByte, convSum_of_identity hodd hcoeff, neighbour_of_mem hx hy, hone, tdiv_one, clampByte_of_byte]
  rw [performed_of_exec hpass hown hexec, ← hbyte]
  exact conv_read _ hwf hx hy hc

/-- Settles O28: every neighbour is the constant, which comes out of the sum. -/
theorem constantImageStaysConstant : Obligations.ConstantImageStaysConstant := by
  intro s k x y c v hw hh hconst
  have hneighbour (cx cy : Int) : s.neighbour cx cy c = v.toNat := by
    obtain ⟨x', y', hx', hy', hsample⟩ := neighbour_eq_sample hw hh cx cy c
    rw [hsample, hconst x' y' hx' hy']
  rw [State.convByte, clampByte_toNat, convSum_eq]
  simp only [hneighbour, Finset.sum_mul]

/-- Settles O29: the factor comes out of the sum and cancels in the quotient. -/
theorem scalingTheKernelChangesNothing : Obligations.ScalingTheKernelChangesNothing := by
  intro s k f x y c hf hdiv
  have hsum : s.convSum ⟨k.size, k.num.map fun v => (f : Int) * v, f * k.div⟩ x y c = f * s.convSum k x y c := by
    rw [convSum_eq, convSum_eq]
    simp only [scaled_coeff, Finset.mul_sum, mul_assoc]
  rw [State.convByte, State.convByte, hsum, Nat.cast_mul,
    tdiv_mul_mul (Int.natCast_pos.mpr hf) (Int.natCast_pos.mpr hdiv)]

end Sys2Proof

/-! The histogram accumulator and the remapper (42_histogram_eq.md R171 to R180): the bins and their cumulative sums,
the remap table entry by entry, and the four commands. -/

namespace Sys2Proof.Machine

variable {s t : State} {h : HistTable}

/-! ### Rounded quotients -/

theorem rdiv_zero_left (b : Int) (hb : 0 < b) : rdiv 0 b = 0 := by
  rw [rdiv, if_pos le_rfl]
  exact Int.ediv_eq_zero_of_lt (by omega) (by omega)

theorem rdiv_mono {a a' b : Int} (ha : 0 ≤ a) (haa' : a ≤ a') (hb : 0 < b) : rdiv a b ≤ rdiv a' b := by
  rw [rdiv, rdiv, if_pos ha, if_pos (ha.trans haa')]
  exact Int.ediv_le_ediv (by omega) (by omega)

/-- A whole multiple rounds to itself: the half added is lost again. -/
theorem rdiv_mul_self {b : Int} (hb : 0 < b) {n : Int} (hn : 0 ≤ n) : rdiv (b * n) b = n := by
  rw [rdiv, if_pos (mul_nonneg hb.le hn)]
  have hsplit : 2 * (b * n) + b = b + 2 * b * n := by ring
  rw [hsplit, Int.add_mul_ediv_left _ _ (by omega), Int.ediv_eq_zero_of_lt hb.le (by omega), zero_add]

/-! ### Bins and cumulative sums -/

theorem getD_eq_bin (h : HistTable) {k : Nat} (hk : k < 256) : h.toList.getD k 0#32 = h[k] := by
  rw [List.getD_eq_getElem _ _ (by simpa using hk)]
  simp

theorem cdf_eq_zero_of_bins {i : Nat} (hi : i < 256) (hzero : ∀ k, k ≤ i → h.toList.getD k 0#32 = 0#32) :
    cdf h i = 0 := by
  rw [cdf_eq h i hi]
  refine Finset.sum_eq_zero fun k hk => ?_
  rw [hzero k (Nat.lt_succ_iff.mp (Finset.mem_range.mp hk))]
  rfl

/-- Above the highest occupied level the cumulative sum is the number of samples (42_histogram_eq.md R173). -/
theorem cdf_eq_sampleCount_of_bins {i : Nat} (hi : i < 256) (hzero : ∀ k, i < k → h.toList.getD k 0#32 = 0#32) :
    cdf h i = cdf h 255 := by
  rw [cdf_eq h i hi, cdf_eq h 255 (by omega)]
  refine Finset.sum_subset (Finset.range_subset_range.mpr (by omega)) fun k _ hk => ?_
  rw [hzero k (by rw [Finset.mem_range] at hk; omega)]
  rfl

theorem sum_bins_eq_cdf (h : HistTable) : (h.toList.map BitVec.toNat).sum = cdf h 255 := by
  rw [cdf, List.take_of_length_le (by simp)]

/-- The bins of a store's histogram hold every pixel once (42_histogram_eq.md R180). -/
theorem cdf_histogram_eq_npix (s : State) : cdf s.histogram 255 = s.npix := by
  have hbins : cdf s.histogram 255 =
      ∑ v ∈ Finset.range 256, ((Finset.range s.npix).filter fun p => s.sample p = v).card := by
    rw [cdf_eq _ _ (by omega)]
    refine Finset.sum_congr rfl fun v hv => ?_
    have hv' : v < 256 := Finset.mem_range.mp hv
    rw [getD_eq_bin _ hv', hist_bin s v hv']
  rw [hbins, ← Finset.card_eq_sum_card_fiberwise fun p _ => Finset.mem_range.mpr (sample_lt s p), Finset.card_range]

theorem histogram_bin_eq_zero {k : Nat} (hk : ∀ p, p < s.npix → s.sample p ≠ k) :
    s.histogram.toList.getD k 0#32 = 0#32 := by
  by_cases hk256 : k < 256
  · refine BitVec.eq_of_toNat_eq ?_
    rw [getD_eq_bin _ hk256, hist_bin s k hk256,
      Finset.filter_eq_empty_iff.mpr fun p hp => hk p (Finset.mem_range.mp hp)]
    rfl
  · exact List.getD_eq_default _ _ (by simpa using hk256)

/-! ### The remap table -/

theorem degenerate_of_lowestLevel {m : Nat} (hm : lowestLevel h = some m) :
    degenerate h = (cdf h 255 == cdf h m) := by
  simp [degenerate, cdfMin, hm, sampleCount]

theorem degenerate_of_no_sample (hm : lowestLevel h = none) : degenerate h = true := by
  simp [degenerate, cdfMin, hm]

/-- A degenerate histogram has the identity for its table (42_histogram_eq.md R176). -/
theorem remapTable_of_degenerate (hdegen : degenerate h = true) : remapTable h = tabulate 256 (BitVec.ofNat 8) := by
  rcases lowest_cases h with ⟨hnone, -⟩ | ⟨m, -, hsome, -, -⟩
  · simp [remapTable, cdfMin, hnone]
  · rw [degenerate_of_lowestLevel hsome, beq_iff_eq] at hdegen
    simp [remapTable, cdfMin, hsome, sampleCount, hdegen]

/-- The rounded quotient of `MAPVAL` for a lowest level m, before it is stored as a byte (42_histogram_eq.md R175);
`mapValue_toNat` ties it to the table. -/
def mapQuotient (h : HistTable) (m i : Nat) : Int :=
  rdiv (((cdf h i : Int) - cdf h m) * 255) ((cdf h 255 : Int) - cdf h m)

theorem mapQuotient_lowest {m : Nat} (hlt : cdf h m < cdf h 255) : mapQuotient h m m = 0 := by
  rw [mapQuotient, sub_self, zero_mul, rdiv_zero_left _ (by omega)]

theorem mapQuotient_of_all {m i : Nat} (hlt : cdf h m < cdf h 255) (hall : cdf h i = cdf h 255) :
    mapQuotient h m i = 255 := by
  rw [mapQuotient, hall, rdiv_mul_self (by omega) (by omega)]

theorem mapQuotient_mono {m i j : Nat} (hlt : cdf h m < cdf h 255) (hmi : m ≤ i) (hij : i ≤ j) (hj : j < 256) :
    mapQuotient h m i ≤ mapQuotient h m j := by
  have hlow : cdf h m ≤ cdf h i := cdf_mono (by omega) hmi
  have hstep : cdf h i ≤ cdf h j := cdf_mono hj hij
  exact rdiv_mono (by omega) (by omega) (by omega)

/-- `MAPVAL` from the lowest level on: the quotient lies between 0 and 255, so the byte holds it (42_histogram_eq.md
R174, R175). -/
theorem mapValue_toNat {m i : Nat} (hi : i < 256) (hmi : m ≤ i) (hlt : cdf h m < cdf h 255) :
    ((mapValue h (cdf h m) i).toNat : Int) = mapQuotient h m i := by
  have hlow : cdf h m ≤ cdf h i := cdf_mono hi hmi
  have h0 : 0 ≤ mapQuotient h m i := (mapQuotient_lowest hlt).symm.trans_le (mapQuotient_mono hlt le_rfl hmi hi)
  have h255 : mapQuotient h m i ≤ 255 :=
    (mapQuotient_mono hlt hmi (by omega) (by omega)).trans_eq (mapQuotient_of_all hlt rfl)
  rw [mapValue, if_neg (by omega), sampleCount]
  exact ofInt8_toNat h0 h255

theorem mapValue_of_lt {m i : Nat} (hi : cdf h i < cdf h m) : mapValue h (cdf h m) i = 0#8 := if_pos hi

/-- The table of a histogram that is not degenerate, entry by entry, m being its lowest level. -/
theorem remapTable_entries (hdegen : degenerate h = false) : ∃ m, m < 256 ∧ 0 < cdf h m ∧ cdf h m < cdf h 255 ∧
    (∀ k, k < m → cdf h k = 0) ∧ (∀ i (hi : i < 256), i < m → (remapTable h)[i] = 0#8) ∧
    ∀ i (hi : i < 256), m ≤ i → (((remapTable h)[i]).toNat : Int) = mapQuotient h m i := by
  obtain ⟨m, hm, hpos, hzero, hlt, htable⟩ := table_facts h hdegen
  refine ⟨m, hm, hpos, hlt, hzero, fun i hi him => ?_, fun i hi hmi => ?_⟩
  · simp only [htable, tabulate_getElem]
    exact mapValue_of_lt (by rw [hzero i him]; exact hpos)
  · simp only [htable, tabulate_getElem]
    exact mapValue_toNat hi hmi hlt

/-- The table does not decrease (42_histogram_eq.md R180). -/
theorem remapTable_mono (h : HistTable) {i j : Nat} (hi : i < 256) (hj : j < 256) (hij : i ≤ j) :
    ((remapTable h)[i]).toNat ≤ ((remapTable h)[j]).toNat := by
  cases hdegen : degenerate h with
  | true =>
    simp only [remapTable_of_degenerate hdegen, tabulate_getElem, BitVec.toNat_ofNat]
    omega
  | false =>
    obtain ⟨m, hm, hpos, hlt, hzero, hbelow, habove⟩ := remapTable_entries hdegen
    by_cases him : i < m
    · rw [hbelow i hi him]
      exact Nat.zero_le _
    · rw [← Int.ofNat_le, habove i hi (by omega), habove j hj (by omega)]
      exact mapQuotient_mono hlt (by omega) hij hj

/-- Up to the lowest occupied level, that level included, the table is 0 (42_histogram_eq.md R174). -/
theorem remapTable_eq_zero (hdegen : degenerate h = false) {i : Nat} (hi : i < 256)
    (hbins : ∀ k, k < i → h.toList.getD k 0#32 = 0#32) : (remapTable h)[i] = 0#8 := by
  obtain ⟨m, hm, hpos, hlt, hzero, hbelow, habove⟩ := remapTable_entries hdegen
  rcases Nat.lt_trichotomy i m with him | rfl | hmi
  · exact hbelow i hi him
  · have hentry := habove i hi le_rfl
    rw [mapQuotient_lowest hlt] at hentry
    exact BitVec.eq_of_toNat_eq (by simpa using hentry)
  · have hnone : cdf h m = 0 := cdf_eq_zero_of_bins hm fun k hk => hbins k (by omega)
    omega

/-- From the highest occupied level on the table is 255 (42_histogram_eq.md R174). -/
theorem remapTable_eq_255 (hdegen : degenerate h = false) {i : Nat} (hi : i < 256)
    (hbins : ∀ k, i < k → h.toList.getD k 0#32 = 0#32) : (remapTable h)[i] = 255#8 := by
  obtain ⟨m, hm, hpos, hlt, hzero, hbelow, habove⟩ := remapTable_entries hdegen
  have hall : cdf h i = cdf h 255 := cdf_eq_sampleCount_of_bins hi hbins
  have hmi : m ≤ i := by
    by_contra him
    have := hzero i (by omega)
    omega
  have hentry := habove i hi hmi
  rw [mapQuotient_of_all hlt hall] at hentry
  refine BitVec.eq_of_toNat_eq ?_
  have h255 : (255#8).toNat = 255 := rfl
  omega

/-! ### The commands -/

/-- HIST writes no byte, so a host keeps the hazard rule for it by leaving the store alone. -/
theorem hostKeepsOwnership_hist (hown : ∀ c ∈ s.touched, s.srcStore.contains c.1 = false) :
    hostKeepsOwnership .hist s := fun c hc => ⟨hown c hc, noRegion_contains c.1⟩

theorem exec_hist (hpass : checksPass .hist s) (hown : hostKeepsOwnership .hist s) :
    exec .hist s = .next (performed s s.mem s.histogram s.map false) := exec_performs hpass hown

/-- EQMAP has no check and no region, so it performs on every state (42_histogram_eq.md R174). -/
theorem exec_eqmap (s : State) :
    exec .eqmap s = .next (performed s s.mem s.hist (remapTable s.hist) (degenerate s.hist)) :=
  exec_performs (i := .eqmap) (fun _ hc => absurd hc List.not_mem_nil)
    fun c _ => ⟨noRegion_contains c.1, noRegion_contains c.1⟩

theorem exec_remap (hpass : checksPass .remap s) (hown : hostKeepsOwnership .remap s) :
    exec .remap s = .next (performed s (s.mem.writeAll (remapWrites s s.map)) s.hist s.map false) :=
  exec_performs hpass hown

theorem exec_equalize (hpass : checksPass .equalize s) (hown : hostKeepsOwnership .equalize s) :
    exec .equalize s = .next (performed s (s.mem.writeAll (remapWrites s (remapTable s.histogram))) s.histogram
      (remapTable s.histogram) (degenerate s.histogram)) := by
  rw [← equalizeFallback_of_hostKeepsOwnership hown]
  exact exec_performs hpass hown

theorem sample_of_bpp8 (h8 : s.bpp = 8#6) (p : Nat) : s.sample p = (s.mem.read (s.srcAddr + p)).toNat := if_pos h8

/-- The sample of a 24-bit pixel is the clamped nearest index of its luminance (42_histogram_eq.md R171). -/
theorem sample_eq_iff_of_bpp24 (h24 : s.bpp = 24#6) (p v : Nat) : s.sample p = v ↔
    clamp (rdiv (29900 * ((s.mem.read (s.srcAddr + 3 * p)).toNat : Int) +
      58700 * ((s.mem.read (s.srcAddr + 3 * p + 1)).toNat : Int) +
      11400 * ((s.mem.read (s.srcAddr + 3 * p + 2)).toNat : Int)) 100000) 0 255 = v := by
  rw [State.sample, if_neg (depth24_ne h24), yidx]
  have hnonneg := le_clamp (v := rdiv (rgb2yuv (s.mem.rgb s.srcAddr p)).y5 100000) (show (0 : Int) ≤ 255 by decide)
  have hcast := Int.toNat_of_nonneg hnonneg
  exact ⟨fun hv => by rw [← hv]; exact hcast.symm, fun hv => Int.ofNat_inj.mp (hcast.trans hv)⟩

/-- REMAP's writes of a 24-bit store, pixel by pixel (42_histogram_eq.md R177). -/
theorem remapWrites_of_bpp24 (h24 : s.bpp = 24#6) (m : MapTable) : remapWrites s m =
    (List.range s.npix).flatMap fun p => rgbCells s.srcAddr p (remapPixel m (s.mem.rgb s.srcAddr p)) := by
  simp [remapWrites, depth24_ne h24]

end Sys2Proof.Machine

namespace Sys2Proof

open Machine

/-- Settles O30: HIST performs with the histogram of the store, whose bins count the pixels by their sample. -/
theorem histCountsTheSamples : Obligations.HistCountsTheSamples := by
  intro s hdepth hsrc hown
  refine ⟨_, exec_hist (inPlace_pass hdepth hsrc) hown, fun v hv => ⟨fun h8 => ?gray, fun h24 => ?colour⟩⟩
  case gray =>
    rw [hist_bin s v hv]
    simp only [sample_of_bpp8 h8]
  case colour =>
    rw [hist_bin s v hv]
    simp only [sample_eq_iff_of_bpp24 h24]

/-- Settles O31: the bins are those of the store, which hold every pixel once. -/
theorem histBinsSumToThePixels : Obligations.HistBinsSumToThePixels := by
  intro s t hpass hown hexec
  cases (exec_hist hpass hown).symm.trans hexec
  exact (sum_bins_eq_cdf s.histogram).trans (cdf_histogram_eq_npix s)

/-- Settles O32: the statement's sums are the cumulative sums; its two clauses are a degenerate histogram and one with m
for its lowest level. -/
theorem eqmapComputesTheRemapTable : Obligations.EqmapComputesTheRemapTable := by
  intro s c
  have hcdf (i : Nat) (hi : i < 256) : c i = cdf s.hist i := (cdf_eq s.hist i hi).symm
  refine ⟨fun hone => ?degenerate, fun m hm hpos hne hzero => ?regular⟩
  case degenerate =>
    have hdegen : degenerate s.hist = true := by
      rcases lowest_cases s.hist with ⟨hnone, -⟩ | ⟨l, hl, hsome, hlpos, hlzero⟩
      · exact degenerate_of_no_sample hnone
      · have hle : cdf s.hist l ≤ cdf s.hist 255 := cdf_mono (by omega) (by omega)
        rw [degenerate_of_lowestLevel hsome, beq_iff_eq]
        rw [hcdf 255 (by omega)] at hone
        rcases hone with hnone | ⟨m, hm, hall, hmzero⟩
        · omega
        · rw [hcdf m hm] at hall
          rcases Nat.lt_trichotomy m l with hml | rfl | hlm
          · have := hlzero m hml
            omega
          · exact hall.symm
          · have := hmzero l hlm
            rw [hcdf l hl] at this
            omega
    rw [exec_eqmap, hdegen, remapTable_of_degenerate hdegen]
  case regular =>
    rw [hcdf m hm] at hpos
    rw [hcdf m hm, hcdf 255 (by omega)] at hne
    have hzero' (k : Nat) (hk : k < m) : cdf s.hist k = 0 := (hcdf k (by omega)).symm.trans (hzero k hk)
    have hlowest : lowestLevel s.hist = some m := lowestLevel_some hm hpos hzero'
    have hle : cdf s.hist m ≤ cdf s.hist 255 := cdf_mono (by omega) (by omega)
    have hdegen : degenerate s.hist = false := by
      rw [degenerate_of_lowestLevel hlowest, beq_eq_false_iff_ne]
      exact hne.symm
    have htable : remapTable s.hist = tabulate 256 (mapValue s.hist (cdf s.hist m)) := by
      simp [remapTable, cdfMin, hlowest, sampleCount, hne.symm]
    refine ⟨_, (exec_eqmap s).trans (by rw [hdegen]), fun i hi => ?_⟩
    simp only [htable, tabulate_getElem, hcdf i hi, hcdf m hm, hcdf 255 (by omega)]
    split_ifs with him
    · rw [mapValue_of_lt (by rw [hzero' i him]; exact hpos)]
      rfl
    · exact mapValue_toNat hi (by omega) (by omega)

/-- Settles O33: the table EQMAP leaves is monotone; DEGEN not raised means a histogram that is not degenerate, whose
table has the two ends. -/
theorem remapTableIsMonotone : Obligations.RemapTableIsMonotone := by
  intro s t hclear hexec
  cases (exec_eqmap s).symm.trans hexec
  refine ⟨fun i j hi hj hij => remapTable_mono s.hist hi hj hij, fun hdegen i hi => ?_⟩
  have hregular : degenerate s.hist = false := by simpa [hclear] using hdegen
  exact ⟨fun hbins => remapTable_eq_zero hregular hi hbins, fun hbins => remapTable_eq_255 hregular hi hbins⟩

/-- Settles O34: each byte of the store is written with its table entry. -/
theorem remapLooksUpEachGrayPixel : Obligations.RemapLooksUpEachGrayPixel := by
  intro s hwf h8 hsrc hown
  refine ⟨_, exec_remap (inPlace_pass (depth_ok8 h8) hsrc) hown, unchanged_of_effect .remap s hwf, fun p hp => ?_⟩
  rw [remap8_read hwf h8 hp]
  exact mapEntry_eq s.map (BitVec.isLt _)

/-- Settles O35: each pixel of the store is written with its remapped pixel. -/
theorem remapReplacesTheLuminance : Obligations.RemapReplacesTheLuminance := by
  intro s hwf h24 hsrc hown
  refine ⟨_, exec_remap (inPlace_pass (depth_ok24 h24) hsrc) hown, unchanged_of_effect .remap s hwf, fun p hp => ?_⟩
  rw [remapWrites_of_bpp24 h24]
  exact rgb_writeAll hwf s.srcAddr s.npix _ hp

/-- Settles O36: neither HIST nor EQMAP touches the store or its operands, so REMAP writes what EQ writes, and the only
one of the three that can raise DEGEN is EQMAP. -/
theorem eqIsHistThenEqmapThenRemap : Obligations.EqIsHistThenEqmapThenRemap := by
  intro s hclear hdepth hsrc hown
  have hpass := inPlace_pass hdepth hsrc
  have hsource : ∀ c ∈ s.touched, s.srcStore.contains c.1 = false := fun c hc => (hown c hc).1
  refine ⟨_, _, _, exec_hist hpass (hostKeepsOwnership_hist hsource), exec_eqmap _, exec_remap hpass hown, ?_⟩
  rw [exec_equalize hpass hown]
  have hdegen : (s.status.degen || false || degenerate s.histogram) = degenerate s.histogram := by simp [hclear]
  exact congrArg (fun d => Host.Outcome.next (performed s _ s.histogram (remapTable s.histogram) d)) hdegen.symm

/-- Settles O37: a pixel becomes the table entry of its value; the bins below the darkest and above the brightest are
empty. -/
theorem eqKeepsOrderAndSpansTheRange : Obligations.EqKeepsOrderAndSpansTheRange := by
  intro s t hwf h8 hpass hown hclear hexec hdegen
  cases (exec_equalize hpass hown).symm.trans hexec
  have hregular : degenerate s.histogram = false := by simpa [hclear] using hdegen
  have hpixel (p : Nat) (hp : p < s.npix) :
      (s.mem.writeAll (remapWrites s (remapTable s.histogram))).read (s.srcAddr + p) =
        (remapTable s.histogram)[(s.mem.read (s.srcAddr + p)).toNat]'(BitVec.isLt _) := by
    rw [remap8_read hwf h8 hp]
    exact mapEntry_eq _ (BitVec.isLt _)
  have hempty {v : Nat} (hv : ∀ q, q < s.npix → (s.mem.read (s.srcAddr + q)).toNat ≠ v) :
      s.histogram.toList.getD v 0#32 = 0#32 :=
    histogram_bin_eq_zero fun q hq => by rw [sample_of_bpp8 h8]; exact hv q hq
  refine ⟨fun p q hp hq hle => ?order, fun p hp hdark => ?darkest, fun p hp hbright => ?brightest⟩
  case order =>
    rw [performed_mem, hpixel p hp, hpixel q hq]
    exact remapTable_mono _ _ _ hle
  case darkest =>
    rw [performed_mem, hpixel p hp]
    exact remapTable_eq_zero hregular _ fun k hk => hempty fun q hq => by have := hdark q hq; omega
  case brightest =>
    rw [performed_mem, hpixel p hp]
    exact remapTable_eq_255 hregular _ fun k hk => hempty fun q hq => by have := hbright q hq; omega

end Sys2Proof

/-! The colour converter (43_colour.md R200 to R206): the exact bounds of a record, the round trip of a pixel, and the
two commands over memory. -/

namespace Sys2Proof.Machine

variable {s u : State}

/-! ### Pixels and records -/

/-- A record's three components fit signed 32-bit words (43_colour.md R200). -/
theorem rgb2yuv_bounds (p : Rgb) :
    (-2147483648 ≤ (rgb2yuv p).y5 ∧ (rgb2yuv p).y5 < 2147483648) ∧
      (-2147483648 ≤ (rgb2yuv p).u5 ∧ (rgb2yuv p).u5 < 2147483648) ∧
      -2147483648 ≤ (rgb2yuv p).v5 ∧ (rgb2yuv p).v5 < 2147483648 := by
  have hr := p.red.isLt
  have hg := p.green.isLt
  have hb := p.blue.isLt
  simp only [rgb2yuv]
  omega

/-- A value within half a unit of an integer rounds to it. -/
theorem rdiv_eq_of_near {a n : Int} (hlow : 10000000000 * n - 5000000000 < a)
    (hhigh : a < 10000000000 * n + 5000000000) : rdiv a 10000000000 = n := by
  unfold rdiv
  split_ifs <;> omega

/-- Converting a pixel and converting it back gives the pixel: the coefficients' error is far below half a unit in each
channel (43_colour.md R204). -/
theorem yuv2rgb_rgb2yuv (p : Rgb) : yuv2rgb (rgb2yuv p) = p := by
  obtain ⟨red, green, blue⟩ := p
  have hr := red.isLt
  have hg := green.isLt
  have hb := blue.isLt
  simp only [yuv2rgb, rgb2yuv]
  rw [rdiv_eq_of_near (n := red.toNat) (by omega) (by omega),
    rdiv_eq_of_near (n := green.toNat) (by omega) (by omega),
    rdiv_eq_of_near (n := blue.toNat) (by omega) (by omega),
    clampByte_of_byte, clampByte_of_byte, clampByte_of_byte]

theorem yidx_mono {a b : Int} (hab : a ≤ b) : yidx a ≤ yidx b := by
  have hrdiv : rdiv a 100000 ≤ rdiv b 100000 := by
    unfold rdiv
    split_ifs <;> omega
  have hclamp : clamp (rdiv a 100000) 0 255 ≤ clamp (rdiv b 100000) 0 255 := by
    unfold clamp
    split_ifs <;> omega
  exact Int.toNat_le_toNat hclamp

/-- The luminance coefficients sum to 1, so a gray pixel's luminance is its own value (43_colour.md R204). -/
theorem yidx_gray (v : Byte) : yidx (rgb2yuv ⟨v, v, v⟩).y5 = v.toNat := by
  have hlt := v.isLt
  have hy5 : (rgb2yuv ⟨v, v, v⟩).y5 = 100000 * (v.toNat : Int) := by
    simp only [rgb2yuv]
    ring
  rw [yidx, hy5, rdiv_mul_self (by norm_num) (by omega), clamp_of_mem (by omega) (by omega), Int.toNat_natCast]

/-! ### The commands -/

theorem checksPass_rgb2yuv (h24 : s.bpp = 24#6) (hsrc : s.inRange s.srcRgb = true) (hdst : s.inRange s.dstYuv = true)
    (happart : s.srcRgb.overlaps s.dstYuv = false) : checksPass .rgb2yuv s := by
  simp [checksPass, checksOf, rgb2yuvChecks, State.checkDepth24, State.checkAddr2, checkAlias, *]

theorem checksPass_yuv2rgb (h24 : s.bpp = 24#6) (hsrc : s.inRange s.srcYuv = true) (hdst : s.inRange s.dstRgb = true)
    (happart : s.srcYuv.overlaps s.dstRgb = false) : checksPass .yuv2rgb s := by
  simp [checksPass, checksOf, yuv2rgbChecks, State.checkDepth24, State.checkAddr2, checkAlias, *]

/-- The record of a pixel after RGB2YUV: the words hold the exact values (43_colour.md R205). -/
theorem rgb2yuvWrites_yuv (hwf : s.mem.wf = true) {p : Nat} (hp : p < s.npix) :
    (s.mem.writeAll (rgb2yuvWrites s)).yuv s.dstAddr p = rgb2yuv (s.mem.rgb s.srcAddr p) := by
  obtain ⟨⟨hy1, hy2⟩, ⟨hu1, hu2⟩, hv1, hv2⟩ := rgb2yuv_bounds (s.mem.rgb s.srcAddr p)
  rw [rgb2yuvWrites, yuv_word_read hwf s.dstAddr s.npix _ hp, toInt_ofInt32 hy1 hy2, toInt_ofInt32 hu1 hu2,
    toInt_ofInt32 hv1 hv2]

/-- The pixel after YUV2RGB, whatever words the record holds (43_colour.md R206). -/
theorem yuv2rgbWrites_rgb (hwf : s.mem.wf = true) {p : Nat} (hp : p < s.npix) :
    (s.mem.writeAll (yuv2rgbWrites s)).rgb s.dstAddr p = yuv2rgb (s.mem.yuv s.srcAddr p) :=
  rgb_writeAll hwf s.dstAddr s.npix _ hp

theorem exec_rgb2yuv_yuv (hwf : s.mem.wf = true) (hpass : checksPass .rgb2yuv s) (hown : hostKeepsOwnership .rgb2yuv s)
    (hexec : exec .rgb2yuv s = .next u) {p : Nat} (hp : p < s.npix) :
    u.mem.yuv s.dstAddr p = rgb2yuv (s.mem.rgb s.srcAddr p) := by
  rw [performed_of_exec hpass hown hexec]
  exact rgb2yuvWrites_yuv hwf hp

theorem exec_yuv2rgb_rgb (hwf : s.mem.wf = true) (hpass : checksPass .yuv2rgb s) (hown : hostKeepsOwnership .yuv2rgb s)
    (hexec : exec .yuv2rgb s = .next u) {p : Nat} (hp : p < s.npix) :
    u.mem.rgb s.dstAddr p = yuv2rgb (s.mem.yuv s.srcAddr p) := by
  rw [performed_of_exec hpass hown hexec]
  exact yuv2rgbWrites_rgb hwf hp

/-- Stores that agree pixel by pixel agree byte by byte. -/
theorem read_eq_of_rgb_eq {m n : Memory} {a b count : Nat} (hrgb : ∀ p, p < count → m.rgb a p = n.rgb b p) {j : Nat}
    (hj : j < count * 3) : m.read (a + j) = n.read (b + j) := by
  have hpixel := hrgb (j / 3) (by omega)
  simp only [Memory.rgb, rgbAddr, Rgb.mk.injEq] at hpixel
  obtain ⟨hred, hgreen, hblue⟩ := hpixel
  have hj3 : j = 3 * (j / 3) + j % 3 := (Nat.div_add_mod j 3).symm
  have hc : j % 3 < 3 := Nat.mod_lt j (by omega)
  rw [hj3, ← Nat.add_assoc, ← Nat.add_assoc]
  generalize j % 3 = c at hc
  interval_cases c
  · exact hred
  · exact hgreen
  · exact hblue

end Sys2Proof.Machine

namespace Sys2Proof

open Machine

/-- Settles O38: the record of each pixel reads back as the exact components, which are the statement's three sums. -/
theorem rgb2yuvWritesTheRecords : Obligations.Rgb2yuvWritesTheRecords := by
  intro s hwf h24 hsrc hdst happart hown
  have hpass := checksPass_rgb2yuv h24 hsrc hdst happart
  refine ⟨_, exec_performs hpass hown, unchanged_of_effect .rgb2yuv s hwf, fun p hp => ?_⟩
  have hrecord := rgb2yuvWrites_yuv hwf hp
  exact ⟨congrArg Yuv.y5 hrecord, congrArg Yuv.u5 hrecord, congrArg Yuv.v5 hrecord⟩

/-- Settles O39: each pixel reads back as the conversion of its record, a clamped byte in each channel. -/
theorem yuv2rgbWritesThePixels : Obligations.Yuv2rgbWritesThePixels := by
  intro s hwf h24 hsrc hdst happart hown
  have hpass := checksPass_yuv2rgb h24 hsrc hdst happart
  refine ⟨_, exec_performs hpass hown, unchanged_of_effect .yuv2rgb s hwf, fun p hp => ?_⟩
  have hpixel := yuv2rgbWrites_rgb hwf hp
  have hbyte {b : Byte} {v : Int} (hb : b = clampByte v) : (b.toNat : Int) = clamp v 0 255 := by
    rw [hb, clampByte_toNat]
  exact ⟨hbyte (congrArg Rgb.red hpixel), hbyte (congrArg Rgb.green hpixel), hbyte (congrArg Rgb.blue hpixel)⟩

/-- Settles O40: the second command reads the records the first one wrote, and a pixel survives the two conversions. -/
theorem colourRoundTripReturnsTheStore : Obligations.ColourRoundTripReturnsTheStore := by
  intro s t u dst2 hwf hpass hown hout hpass' hown' hin j hj
  have hwft : t.mem.wf = true := exec_mem_wf hwf hout
  have hrecord {p : Nat} (hp : p < s.npix) := exec_rgb2yuv_yuv hwf hpass hown hout hp
  cases performed_of_exec hpass hown hout
  have hpixel (p : Nat) (hp : p < s.npix) : u.mem.rgb dst2.toNat p = s.mem.rgb s.srcAddr p := by
    have hback := exec_yuv2rgb_rgb (by exact hwft) hpass' hown' hin hp
    exact hback.trans ((congrArg yuv2rgb (hrecord hp)).trans (yuv2rgb_rgb2yuv _))
  exact read_eq_of_rgb_eq hpixel hj

/-- Settles O41: gray by the coefficients, monotone because rounding and clamping are. -/
theorem luminanceIndexIsMonotone : Obligations.LuminanceIndexIsMonotone :=
  ⟨yidx_gray, fun _ _ hab => yidx_mono hab⟩

end Sys2Proof
